-- ==== Sys2Proof/Word.lean ====
section
/-!
DEFINITION. The word types of FDX: stream bytes, operation words and read data.
-/

namespace Sys2Proof

/-- One stream byte, 8 bits (00_scope R9, 20_memory R50). -/
abbrev Byte := BitVec 8

/-- One operation word on the input port, 12 bits (30_encoding R70). -/
abbrev OpWord := BitVec 12

/-- The data of one read through the read port, 16 bits (10_state R36). -/
abbrev ReadWord := BitVec 16

end Sys2Proof
end

