-- ==== Sys2Proof/Syntax.lean ====
section
/-!
DEFINITION. The operations of FDX: one constructor per row of spec/opcode_table.json.
-/

namespace Sys2Proof

/-- The seven command names of the command table, in the order of their codes (30_encoding R91). -/
inductive CommandName where
  | dischargeOn
  | dischargeOff
  | chargeOn
  | chargeOff
  | requestRead
  | requestCellVoltage
  | requestInfo
deriving DecidableEq, Repr

/-- The operations: the words of the input port (30_encoding R71), the consumer's strobe (41 R146), and the four
dispatch arms of the payload extractor (41 R131). -/
inductive Instr where
  /-- NOP, 40_frame_decoder R101. -/
  | nop
  /-- PUSH b, R102. -/
  | push (b : Byte)
  /-- EOC, R103. -/
  | eoc
  /-- ENC discharge_on, 42_command_table R171. -/
  | encDischargeOn
  /-- ENC discharge_off, R172. -/
  | encDischargeOff
  /-- ENC charge_on, R173. -/
  | encChargeOn
  /-- ENC charge_off, R174. -/
  | encChargeOff
  /-- ENC request_read, R175. -/
  | encRequestRead
  /-- ENC request_cell_voltage, R176. -/
  | encRequestCellVoltage
  /-- ENC request_info, R177. -/
  | encRequestInfo
  /-- CLR, 40_frame_decoder R104. -/
  | clr
  /-- Any illegal operation word, with the word itself, R105. -/
  | illegal (w : OpWord)
  /-- POP, the strobe of the consumer port, 41_payload_extractor R146. -/
  | pop
  /-- DEC.BATT, the arm for command byte 0x03, R133. -/
  | decBatt
  /-- DEC.CELL, the arm for command byte 0x04, R135. -/
  | decCell
  /-- DEC.INFO, the arm for command byte 0x05, R138. -/
  | decInfo
  /-- DEC.UNSUPPORTED, the arm for every other command byte, with that byte, R139. -/
  | decUnsupported (cmd : Byte)
deriving DecidableEq, Repr

end Sys2Proof
end

