-- ==== Sys2Proof/WellFormed.lean ====
section
/-!
DEFINITION. The two checks a term of `Instr` must meet to stand for a row of the opcode table.
-/

namespace Sys2Proof

/-- The illegal operation words, the list of 30_encoding R76. -/
def isIllegalWord (w : OpWord) : Bool :=
  (decide (0x400 ≤ w.toNat) && decide (w.toNat ≤ 0xEFF)) ||
  (decide (0x001 ≤ w.toNat) && decide (w.toNat ≤ 0x0FF)) ||
  (decide (0x201 ≤ w.toNat) && decide (w.toNat ≤ 0x2FF)) ||
  (decide (0xF01 ≤ w.toNat) && decide (w.toNat ≤ 0xFFF)) ||
  (decide (0x307 ≤ w.toNat) && decide (w.toNat ≤ 0x3FF))

/-- The command bytes that have an arm of their own (30_encoding R80). -/
def isSupportedCommand (c : Byte) : Bool :=
  c == 0x03 || c == 0x04 || c == 0x05

/-- `illegal w` carries a word of R76, and `decUnsupported c` a command byte outside 3, 4 and 5 (41 R139). Every
other operation is well formed as it stands. -/
def Instr.wellFormed : Instr → Bool
  | .nop => true
  | .push _ => true
  | .eoc => true
  | .encDischargeOn => true
  | .encDischargeOff => true
  | .encChargeOn => true
  | .encChargeOff => true
  | .encRequestRead => true
  | .encRequestCellVoltage => true
  | .encRequestInfo => true
  | .clr => true
  | .illegal w => isIllegalWord w
  | .pop => true
  | .decBatt => true
  | .decCell => true
  | .decInfo => true
  | .decUnsupported c => !isSupportedCommand c

end Sys2Proof
end

