-- ==== Sys2Proof/Decode.lean ====
section
/-!
DEFINITION. Reading an operation from its bits, and the encoder, both written from 30_encoding R70 to R80.

FDX has three encoding spaces (R78): the 12-bit words of the input port, the command byte `F[1]` of the frame in the
slot, and the consumer's strobe, which carries no bits. Decoding is total on each of them.
-/

namespace Sys2Proof

/-- Bits 11:8 of an operation word, the opcode (30_encoding R70). -/
def opField (w : OpWord) : BitVec 4 := w.extractLsb' 8 4

/-- Bits 7:0 of an operation word, the operand (30_encoding R70). -/
def operandField (w : OpWord) : Byte := w.extractLsb' 0 8

/-- The word with opcode `op` and operand `operand` (30_encoding R70). -/
def opWord (op : BitVec 4) (operand : Byte) : OpWord := op ++ operand

/-- The command-name code of a name (30_encoding R91). -/
def CommandName.code : CommandName → Byte
  | .dischargeOn => 0
  | .dischargeOff => 1
  | .chargeOn => 2
  | .chargeOff => 3
  | .requestRead => 4
  | .requestCellVoltage => 5
  | .requestInfo => 6

/-- The ENC operation of a command name (42_command_table R171 to R177). -/
def CommandName.instr : CommandName → Instr
  | .dischargeOn => .encDischargeOn
  | .dischargeOff => .encDischargeOff
  | .chargeOn => .encChargeOn
  | .chargeOff => .encChargeOff
  | .requestRead => .encRequestRead
  | .requestCellVoltage => .encRequestCellVoltage
  | .requestInfo => .encRequestInfo

/-- The command name an ENC operand selects: `00000 nnn` with `n` from 0 to 6; code 7 and a nonzero
`word[7:3]` select none (30_encoding R74). -/
def commandOfOperand (operand : Byte) : Option CommandName :=
  match operand.toNat with
  | 0 => some .dischargeOn
  | 1 => some .dischargeOff
  | 2 => some .chargeOn
  | 3 => some .chargeOff
  | 4 => some .requestRead
  | 5 => some .requestCellVoltage
  | 6 => some .requestInfo
  | _ => none

/-- The operation of an input-port word: the opcode map of 30_encoding R71, with the must-be-zero operands of R75
and the ENC codes of R74. Every word that the map does not give a meaning is ILLEGAL (R76). -/
def decodeWord (w : OpWord) : Instr :=
  match (opField w).toNat with
  | 0x0 => if operandField w = 0 then .nop else .illegal w
  | 0x1 => .push (operandField w)
  | 0x2 => if operandField w = 0 then .eoc else .illegal w
  | 0x3 =>
    match commandOfOperand (operandField w) with
    | some n => n.instr
    | none => .illegal w
  | 0xF => if operandField w = 0 then .clr else .illegal w
  | _ => .illegal w

/-- The extractor's arm for a command byte `F[1]` (30_encoding R80, 41_payload_extractor R131). -/
def decodeCommand (c : Byte) : Instr :=
  if c = 0x03 then .decBatt
  else if c = 0x04 then .decCell
  else if c = 0x05 then .decInfo
  else .decUnsupported c

/-- The three formats of the opcode table (30_encoding R78). -/
inductive Format where
  | opWord12
  | frameDispatch
  | consumerPort
deriving DecidableEq, Repr

/-- The bits an operation arrives as, one constructor per format (30_encoding R78). -/
inductive Encoding where
  | word (w : OpWord)
  | command (c : Byte)
  | strobe
deriving DecidableEq, Repr

/-- The format of an encoding. -/
def Encoding.format : Encoding → Format
  | .word _ => .opWord12
  | .command _ => .frameDispatch
  | .strobe => .consumerPort

/-- Decoding, total on every encoding. -/
def decode : Encoding → Instr
  | .word w => decodeWord w
  | .command c => decodeCommand c
  | .strobe => .pop

/-- Why a number is no encoding of FDX. -/
inductive Rejection where
  /-- A word with a bit above bit 11: an operation word is 12 bits wide (R70). -/
  | widerThanAnOperationWord
  /-- A command byte with a bit above bit 7. -/
  | widerThanACommandByte
  /-- Bits given to the POP strobe, which has none (R78). -/
  | strobeCarriesNoBits
deriving DecidableEq, Repr

/-- The encoding that a number of `nbits` bits stands for, the bits numbered as the opcode table numbers them: 0 bits
are the strobe, up to 8 a command byte, more an operation word. A number too wide for its format is rejected by
name. -/
def Encoding.ofNumber (nbits w : Nat) : Except Rejection Encoding :=
  if nbits = 0 then
    if w = 0 then .ok .strobe else .error .strobeCarriesNoBits
  else if nbits ≤ 8 then
    if w < 256 then .ok (.command (BitVec.ofNat 8 w)) else .error .widerThanACommandByte
  else
    if w < 4096 then .ok (.word (BitVec.ofNat 12 w)) else .error .widerThanAnOperationWord

/-- The instruction the decoder reads from a row's bits, `none` where it rejects them. -/
def decodeTableWord (nbits w : Nat) : Option Instr :=
  match Encoding.ofNumber nbits w with
  | .ok e => some (decode e)
  | .error _ => none

/-- The encoding of an operation, written from the word patterns of 30_encoding R71 (`0001 bbbb bbbb`,
`0011 0000 0nnn` and so on), the command bytes of R80, and R78 for POP. -/
def encode : Instr → Encoding
  | .nop => .word (opWord 0x0 0x00)
  | .push b => .word (opWord 0x1 b)
  | .eoc => .word (opWord 0x2 0x00)
  | .encDischargeOn => .word (opWord 0x3 CommandName.dischargeOn.code)
  | .encDischargeOff => .word (opWord 0x3 CommandName.dischargeOff.code)
  | .encChargeOn => .word (opWord 0x3 CommandName.chargeOn.code)
  | .encChargeOff => .word (opWord 0x3 CommandName.chargeOff.code)
  | .encRequestRead => .word (opWord 0x3 CommandName.requestRead.code)
  | .encRequestCellVoltage => .word (opWord 0x3 CommandName.requestCellVoltage.code)
  | .encRequestInfo => .word (opWord 0x3 CommandName.requestInfo.code)
  | .clr => .word (opWord 0xF 0x00)
  | .illegal w => .word w
  | .pop => .strobe
  | .decBatt => .command 0x03
  | .decCell => .command 0x04
  | .decInfo => .command 0x05
  | .decUnsupported c => .command c

/-- A row of spec/opcode_table.json as 30_encoding R78 reads it: `w` matches when `w & mask = pattern`. -/
structure Row where
  pattern : Nat
  mask : Nat
deriving DecidableEq, Repr

/-- The test of one row (30_encoding R78). -/
def Row.accepts (r : Row) (w : Nat) : Bool := (w &&& r.mask) == r.pattern

/-- The input-port rows of spec/opcode_table.json in their order, each with the operation it names. -/
def opWordRows (w : OpWord) : List (Row × Instr) :=
  [ (⟨0x000, 0xFFF⟩, .nop),
    (⟨0x100, 0xF00⟩, .push (operandField w)),
    (⟨0x200, 0xFFF⟩, .eoc),
    (⟨0x300, 0xFFF⟩, .encDischargeOn),
    (⟨0x301, 0xFFF⟩, .encDischargeOff),
    (⟨0x302, 0xFFF⟩, .encChargeOn),
    (⟨0x303, 0xFFF⟩, .encChargeOff),
    (⟨0x304, 0xFFF⟩, .encRequestRead),
    (⟨0x305, 0xFFF⟩, .encRequestCellVoltage),
    (⟨0x306, 0xFFF⟩, .encRequestInfo),
    (⟨0xF00, 0xFFF⟩, .clr),
    (⟨0x000, 0x000⟩, .illegal w) ]

/-- The frame dispatch rows of spec/opcode_table.json in their order. -/
def commandRows (c : Byte) : List (Row × Instr) :=
  [ (⟨0x03, 0xFF⟩, .decBatt),
    (⟨0x04, 0xFF⟩, .decCell),
    (⟨0x05, 0xFF⟩, .decInfo),
    (⟨0x00, 0x00⟩, .decUnsupported c) ]

/-- "Rows are tried in order and the first matching row selects the operation" (30_encoding R78). -/
def firstMatch (rows : List (Row × Instr)) (w : Nat) : Option Instr :=
  (rows.find? fun r => r.1.accepts w).map (·.2)

end Sys2Proof
end

