-- ==== Sys2Proof/Config.lean ====
section
/-!
DEFINITION. What a build of FDX fixes (the parameter ACC_CAP) and the values the spec leaves open.
-/

namespace Sys2Proof

/-- The parameters of a build. `accCap` is `ACC_CAP` of 00_scope R8: `none` is the unbounded buffer of the
source, `some c` a build with room for `c` bytes. OPEN by 92 D4, so a claim is stated for every value. -/
structure Config where
  accCap : Option Nat
deriving DecidableEq, Repr

/-- The build with no bound on the accumulator, "the source's own behaviour" (00_scope R8). -/
def Config.unbounded : Config := ⟨none⟩

/-- The builds 00_scope R8 allows: no bound, or `34 <= c <= 65535`. -/
def Config.legal (c : Config) : Bool :=
  match c.accCap with
  | none => true
  | some n => decide (34 ≤ n) && decide (n ≤ 65535)

/-- `n` bytes are within the capacity of the build (10_state R23). -/
def Config.holdsBytes (c : Config) (n : Nat) : Bool :=
  match c.accCap with
  | none => true
  | some cap => decide (n ≤ cap)

/-- FREE VALUE. The 16 bits OUT_LEN shows for a frame of more than 65535 bytes, which only an unbounded build can
hold: 10_state R34 gives the register 16 bits and states no value there. One value per frame, because a read is
idempotent (20_memory R59). Log 6, DESIGN CHOICE. -/
opaque Config.openOutLen : List Byte → ReadWord

/-- FREE VALUE. The 16 bits NAME_LEN shows for a name of more than 65535 bytes (10_state R38 and R36 state no
value there). Log 6, DESIGN CHOICE. -/
opaque Config.openNameLen : List Byte → ReadWord

end Sys2Proof
end

