-- ==== Sys2Proof/Machine/Result.lean ====
section
/-!
DEFINITION. The result of the payload extractor, the tagged union of 41_payload_extractor R132.
-/

namespace Sys2Proof.Machine

/-- The BATTERY record: raw 16-bit signed fields as the integers they stand for, the status byte, its two bits
(41_payload_extractor R132). -/
structure BatteryState where
  voltageRaw : Int
  currentRaw : Int
  chargeRaw : Int
  fullRaw : Int
  status : Byte
  chargeOn : Bool
  dischargeOn : Bool
  temp1Raw : Int
  temp2Raw : Int
deriving DecidableEq, Repr

/-- `Result` of 41_payload_extractor R132, one tag per kind 1 to 6 of 30_encoding R90. -/
inductive Result where
  | battery (r : BatteryState)
  | cell (numcells : Nat) (cells : List Int)
  | info (name : List Byte)
  | truncated (cmd : Byte)
  | unsupported (cmd : Byte)
  | badCount (cmd : Byte) (countRaw : Int)
deriving DecidableEq, Repr

/-- What a read returns: a 16-bit word, or, only for ACC_LEN of an unbounded build beyond 65535, the unbounded
natural number of 10_state R33. -/
inductive ReadValue where
  | word (v : ReadWord)
  | natural (n : Nat)
deriving DecidableEq, Repr

end Sys2Proof.Machine
end

