-- ==== Sys2Proof/Machine/State.lean ====
section
/-!
DEFINITION. The state of FDX as plain data, its reset value, and the reasons a run records or a step stops.
-/

namespace Sys2Proof.Machine

/-- The faults of a run. The spec tells a model to record each of these while the hardware goes on (60_exceptions
R200, 10_state R39, 93 I-2, I-4, I-5), so a step adds them to `State.faults` and answers a next state: no step of
this model ends in the fault outcome. -/
inductive Fault where
  /-- Recorded by a PUSH that finds the accumulator full (40_frame_decoder R106). Safe: the hardware goes on in the
  same way, and claims about the source take its absence as a premise. -/
  | accumulatorOverflow
  /-- Recorded by the input port for an illegal operation word, a fault of the producer (40_frame_decoder R105).
  Safe, for the same reason. -/
  | illegalWord
  /-- Recorded for the consumer when it reads a register whose "valid when" condition is false (10_state R39). Safe:
  the hardware returns an unspecified value, and the model gives none. -/
  | readWithoutValue
deriving DecidableEq, Repr

/-- The refusals of `exec`. -/
inductive Refusal where
  /-- An operation with no meaning yet. Raised by no arm of `exec`: every row of the table has its meaning. -/
  | notModelled (mnemonic : String)
deriving DecidableEq, Repr

/-- What the consumer can do in a turn of its own (00_scope R18). -/
inductive ConsumerAction where
  /-- A read through the read port (10_state R36). -/
  | read (sel : BitVec 4) (idx : BitVec 16)
  /-- A look at the whole output RESULT (10_state R20, R28). Log 4. -/
  | look
  /-- The POP strobe (41_payload_extractor R146). -/
  | pop
deriving DecidableEq, Repr

/-- Whose step it is: one constructor per agent of 00_scope R18. -/
inductive Turn where
  | producer
  | consumer (a : ConsumerAction)
  | reset
deriving DecidableEq, Repr

/-- What the consumer saw in a turn. -/
inductive Observation where
  /-- The answer of a read, `none` where it has no value (10_state R39). -/
  | read (sel : BitVec 4) (idx : BitVec 16) (answer : Option ReadValue)
  /-- RESULT, `none` standing for `NONE` (10_state R28). -/
  | result (r : Option Result)
deriving DecidableEq, Repr

/-- The state. `acc`, `slot`, `ovf` and `ill` are the record of 10_state R20, `tx` the output trace of R30, `input`
the words on the input port (30_encoding R72). The other fields are the model's own: the build, what was seen, the
recorded faults and the order of turns (INVENTORY.md). -/
structure State where
  /-- The build's parameter ACC_CAP (00_scope R8); no step changes it. -/
  cfg : Config
  /-- ACC, oldest byte first (10_state R23). -/
  acc : List Byte
  /-- OUT_VALID and OUT_FRAME as one option (10_state R25). -/
  slot : Option (List Byte)
  /-- OVF, sticky (10_state R27). -/
  ovf : Bool
  /-- ILL, sticky (10_state R27). -/
  ill : Bool
  /-- TX, every byte written to the transport, oldest first (10_state R30). -/
  tx : List Byte
  /-- What the consumer saw, oldest first; nothing reads it back. -/
  observed : List Observation
  /-- The faults of the run, oldest first; nothing reads it back. -/
  faults : List Fault
  /-- The words the producer offers, in order; the head is the word now offered (30_encoding R72). -/
  input : List OpWord
  /-- Whose turns come next, the head first. -/
  schedule : List Turn
deriving DecidableEq, Repr

/-- A build right after reset, with nothing offered and no turn taken (10_state R41, 70_reset_and_hazards R222). -/
def State.initial (c : Config) : State where
  cfg := c
  acc := []
  slot := none
  ovf := false
  ill := false
  tx := []
  observed := []
  faults := []
  input := []
  schedule := []

/-- The machine right after reset, in the unbounded build (10_state R41). The build is DESIGN CHOICE (log 1). -/
def State.reset : State := State.initial Config.unbounded

end Sys2Proof.Machine
end

