-- ==== Sys2Proof/Machine/Flags.lean ====
section
/-!
DEFINITION. The two sticky flags OVF and ILL and the STATUS register (10_state R27, R32).
-/

namespace Sys2Proof.Machine

/-- `raise Flag(OVF)` (00_scope R13), recorded as a fault of the run (60_exceptions R200). -/
def State.raiseOvf (s : State) : State :=
  { s with ovf := true, faults := s.faults ++ [.accumulatorOverflow] }

/-- `raise Flag(ILL)` (00_scope R13), recorded as a fault of the run (60_exceptions R200). -/
def State.raiseIll (s : State) : State :=
  { s with ill := true, faults := s.faults ++ [.illegalWord] }

/-- OUT_VALID, the level that is also the only event output (10_state R25, 60_exceptions R201). -/
def State.outValid (s : State) : Bool := s.slot.isSome

/-- The STATUS register: OUT_VALID at bit 0, OVF at bit 1, ILL at bit 2, bits 15:3 read as 0 (10_state R32). -/
def State.statusWord (s : State) : ReadWord :=
  (0#13 ++ BitVec.ofBool s.ill ++ BitVec.ofBool s.ovf ++ BitVec.ofBool s.outValid : BitVec 16)

end Sys2Proof.Machine
end

