-- ==== Sys2Proof/Machine/Ops.lean ====
section
/-!
DEFINITION. The shared operations over the state: the boundary test, the accumulator, the slot, TX, the hold.

FDX has no trap entry and no trap return (60_exceptions R198, R199), so there is no exception to take here: an
abnormal condition is `raiseOvf` or `raiseIll` of Flags.lean, or a value of `Result`.
-/

namespace Sys2Proof.Machine

/-- `START` (00_scope R3). -/
def startMarker : Byte := 0xDD

/-- `END` (00_scope R3). -/
def endMarker : Byte := 0x77

/-- `MIN_FRAME` (00_scope R4). -/
def minFrame : Nat := 5

/-- The boundary predicate `Closes(A)`: length, first byte and last byte, nothing else (40_frame_decoder R100,
R112). -/
def closes (A : List Byte) : Bool :=
  decide (4 < A.length) && decide (A.head? = some startMarker) && decide (A.getLast? = some endMarker)

/-- The reference function `Feed(acc, chunk)` of 40_frame_decoder R109: the new accumulator and the frames emitted. -/
def feed (acc chunk : List Byte) : List Byte × List (List Byte) :=
  if closes (acc ++ chunk) then ([], [acc ++ chunk]) else (acc ++ chunk, [])

/-- `|ACC| = c` under `ACC_CAP = some c` (40_frame_decoder R106). -/
def State.accFull (s : State) : Bool := decide (s.cfg.accCap = some s.acc.length)

/-- `ACC <- ACC ++ [b]` (40_frame_decoder R102). -/
def State.appendAcc (b : Byte) (s : State) : State := { s with acc := s.acc ++ [b] }

/-- `Emit(ACC)` and `ACC <- []`, in one step (40_frame_decoder R103, 20_memory R58). -/
def State.emitAcc (s : State) : State := { s with slot := some s.acc, acc := [] }

/-- The slot emptied (41_payload_extractor R146). -/
def State.emptySlot (s : State) : State := { s with slot := none }

/-- Every state element of 10_state R20 at its reset value; TX, the offered words and the model's own fields stay.
CLR and the reset input both do this (40_frame_decoder R104, 70_reset_and_hazards R220). -/
def State.clear (s : State) : State := { s with acc := [], slot := none, ovf := false, ill := false }

/-- `TxSend(L)` (00_scope R13). -/
def State.txSend (bytes : List Byte) (s : State) : State := { s with tx := s.tx ++ bytes }

/-- The consumer's trace lengthened by what it saw. -/
def State.observe (o : Observation) (s : State) : State := { s with observed := s.observed ++ [o] }

/-- A fault of the reading agent recorded (10_state R39). -/
def State.recordReadFault (s : State) : State := { s with faults := s.faults ++ [.readWithoutValue] }

/-- The words on the input port replaced. -/
def State.withInput (ws : List OpWord) (s : State) : State := { s with input := ws }

/-- The coming turns replaced. -/
def State.withSchedule (ts : List Turn) (s : State) : State := { s with schedule := ts }

/-- The port holds the offered operation: an EOC with `OVF = 0` and a full slot, nothing else (30_encoding R72,
40_frame_decoder R103). -/
def holds (i : Instr) (s : State) : Bool := decide (i = .eoc) && !s.ovf && s.slot.isSome

end Sys2Proof.Machine
end

