-- ==== Sys2Proof/Machine/CommandTable.lean ====
section
/-!
DEFINITION. The constant command table CMD_ROM and the seven ENC operations (42_command_table).
-/

namespace Sys2Proof.Machine

/-- `CMD_ROM`, the byte sequences of R171 to R177 in table order. The sequences of charge_on and discharge_on are
byte-identical and stay so (R179). -/
def cmdRom : CommandName → List Byte
  | .dischargeOn => [0xDD, 0x5A, 0xE1, 0x02, 0x00, 0x00, 0xFF, 0x1D, 0x77]
  | .dischargeOff => [0xDD, 0x5A, 0xE1, 0x02, 0x00, 0x02, 0xFF, 0x1B, 0x77]
  | .chargeOn => [0xDD, 0x5A, 0xE1, 0x02, 0x00, 0x00, 0xFF, 0x1D, 0x77]
  | .chargeOff => [0xDD, 0x5A, 0xE1, 0x02, 0x00, 0x01, 0xFF, 0x1C, 0x77]
  | .requestRead => [0xDD, 0xA5, 0x03, 0x00, 0xFF, 0xFD, 0x77]
  | .requestCellVoltage => [0xDD, 0xA5, 0x04, 0x00, 0xFF, 0xFC, 0x77]
  | .requestInfo => [0xDD, 0xA5, 0x05, 0x00, 0xFF, 0xFB, 0x77]

/-- ENC n: the whole sequence of command `n` to TX, in every state (R170, R180). -/
def sendCommand (n : CommandName) (s : State) : Host.Outcome State Fault Refusal := .next (s.txSend (cmdRom n))

/-- ENC discharge_on (R171). -/
def execEncDischargeOn (s : State) : Host.Outcome State Fault Refusal := sendCommand .dischargeOn s

/-- ENC discharge_off (R172). -/
def execEncDischargeOff (s : State) : Host.Outcome State Fault Refusal := sendCommand .dischargeOff s

/-- ENC charge_on (R173). -/
def execEncChargeOn (s : State) : Host.Outcome State Fault Refusal := sendCommand .chargeOn s

/-- ENC charge_off (R174). -/
def execEncChargeOff (s : State) : Host.Outcome State Fault Refusal := sendCommand .chargeOff s

/-- ENC request_read (R175). -/
def execEncRequestRead (s : State) : Host.Outcome State Fault Refusal := sendCommand .requestRead s

/-- ENC request_cell_voltage (R176). -/
def execEncRequestCellVoltage (s : State) : Host.Outcome State Fault Refusal := sendCommand .requestCellVoltage s

/-- ENC request_info (R177). -/
def execEncRequestInfo (s : State) : Host.Outcome State Fault Refusal := sendCommand .requestInfo s

end Sys2Proof.Machine
end

