-- ==== Sys2Proof/Machine/Operands.lean ====
section
/-!
DEFINITION. The operand forms of FDX: the fields of a frame (00_scope R10 to R13, 20_memory section 2).
-/

namespace Sys2Proof.Machine

/-- `s16(hi, lo)`: the integer whose 16-bit two's-complement encoding is `{hi, lo}` (00_scope R12). -/
def s16 (hi lo : Byte) : Int :=
  (hi.toNat * 256 + lo.toNat : Int) - (if 0x80 ≤ hi.toNat then 65536 else 0)

/-- A signed value as its 16-bit two's-complement pattern (10_state R36). -/
def pattern16 (v : Int) : ReadWord := BitVec.ofInt 16 v

/-- `zext_16` of a byte (00_scope R12). -/
def zext16 (b : Byte) : ReadWord := b.setWidth 16

/-- A single bit as read data (10_state R38, CHARGE_ON and DISCHARGE_ON). -/
def bit16 (b : Bool) : ReadWord := if b then 1 else 0

/-- The half-open slice `L[a..b)`, empty when `b <= a` (00_scope R11). -/
def slice (L : List Byte) (a b : Nat) : List Byte := (L.take b).drop a

/-- `charge_on`, bit 0 of the status byte, the least significant one (20_memory R53, 30_encoding R88). -/
def statusChargeOn (s : Byte) : Bool := s.getLsbD 0

/-- `discharge_on`, bit 1 of the status byte (20_memory R53, 30_encoding R88). -/
def statusDischargeOn (s : Byte) : Bool := s.getLsbD 1

/-- The count of a cell frame, `s16(F[2], F[3])`; `none` where the frame ends before byte 3, an out-of-bounds read
(00_scope R13), which no frame of the slot shows (41_payload_extractor, introduction). -/
def countRaw (F : List Byte) : Option Int :=
  match F with
  | _ :: _ :: hi :: lo :: _ => some (s16 hi lo)
  | _ => none

end Sys2Proof.Machine
end

