-- ==== Sys2Proof/Machine/Extractor.lean ====
section
/-!
DEFINITION. The payload extractor: the four dispatch arms and `Extract` (41_payload_extractor).
-/

namespace Sys2Proof.Machine

/-- DecBatt: the fixed offsets 4, 6, 8, 10, 24, 27 and 29, TRUNCATED below 31 bytes (R133). -/
def decBatt (F : List Byte) : Result :=
  if h : F.length < 31 then .truncated 0x03
  else .battery
    { voltageRaw := s16 F[4] F[5]
      currentRaw := s16 F[6] F[7]
      chargeRaw := s16 F[8] F[9]
      fullRaw := s16 F[10] F[11]
      status := F[24]
      chargeOn := statusChargeOn F[24]
      dischargeOn := statusDischargeOn F[24]
      temp1Raw := s16 F[27] F[28]
      temp2Raw := s16 F[29] F[30] }

/-- DecCell: BADCOUNT for a negative or odd count, before TRUNCATED for a frame too short for its cells, else the
cells in order (R135, R136, 60_exceptions R195). A frame that ends before its count is an out-of-bounds read,
TRUNCATED by R13 and R137. -/
def decCell (F : List Byte) : Result :=
  match countRaw F with
  | none => .truncated 0x04
  | some raw =>
    if raw < 0 ∨ raw % 2 = 1 then .badCount 0x04 raw
    else if h : F.length < 4 + 2 * (raw / 2).toNat then .truncated 0x04
    else .cell (raw / 2).toNat
      (List.ofFn fun i : Fin (raw / 2).toNat => s16 F[4 + 2 * i.val] F[5 + 2 * i.val])

/-- DecInfo: the name bytes `F[4 .. N-4)`, never TRUNCATED (R138). -/
def decInfo (F : List Byte) : Result := .info (slice F 4 (F.length - 4))

/-- UNSUPPORTED with the command byte (R139). -/
def decUnsupported (cmd : Byte) : Result := .unsupported cmd

/-- The arm an operation of the dispatch rows applies to a frame; `none` for an operation that is no arm. -/
def armResult (i : Instr) (F : List Byte) : Option Result :=
  match i with
  | .decBatt => some (decBatt F)
  | .decCell => some (decCell F)
  | .decInfo => some (decInfo F)
  | .decUnsupported cmd => some (decUnsupported cmd)
  | .nop | .push _ | .eoc | .clr | .illegal _ | .pop => none
  | .encDischargeOn | .encDischargeOff | .encChargeOn | .encChargeOff => none
  | .encRequestRead | .encRequestCellVoltage | .encRequestInfo => none

/-- `Extract(F)`: only the command byte `F[1]` selects the arm (R131). `none` exactly where a list has no byte 1,
which no frame of the slot is. -/
def extract (F : List Byte) : Option Result :=
  F[1]?.bind fun cmd => armResult (decodeCommand cmd) F

/-- `RESULT`, recomputed from the slot; `none` is `NONE` (R130, 10_state R28). -/
def State.result (s : State) : Option Result := s.slot.bind extract

/-- A frame selects the arm `i` by its command byte `F[1]` and by nothing else (R131). -/
def selects (i : Instr) (F : List Byte) : Bool := decide (F[1]?.map decodeCommand = some i)

/-- One arm at work: where the frame in the slot selects it, its result is on the output RESULT and the consumer sees
it; an arm that is not selected yields nothing. No other state changes (R130). Log 4. -/
def runArm (i : Instr) (arm : List Byte → Result) (s : State) : Host.Outcome State Fault Refusal :=
  match s.slot with
  | none => .next s
  | some F => if selects i F then .next (s.observe (.result (some (arm F)))) else .next s

/-- DEC.BATT (R133). -/
def execDecBatt (s : State) : Host.Outcome State Fault Refusal := runArm .decBatt decBatt s

/-- DEC.CELL (R135). -/
def execDecCell (s : State) : Host.Outcome State Fault Refusal := runArm .decCell decCell s

/-- DEC.INFO (R138). -/
def execDecInfo (s : State) : Host.Outcome State Fault Refusal := runArm .decInfo decInfo s

/-- DEC.UNSUPPORTED (R139). -/
def execDecUnsupported (cmd : Byte) (s : State) : Host.Outcome State Fault Refusal :=
  runArm (.decUnsupported cmd) (fun _ => decUnsupported cmd) s

end Sys2Proof.Machine
end

