-- ==== Sys2Proof/Machine/ConsumerPort.lean ====
section
/-!
DEFINITION. The consumer port: POP (41_payload_extractor R146) and the read map (10_state R32 to R39).
-/

namespace Sys2Proof.Machine

/-- POP: the slot emptied; on an empty slot nothing changes (R146, R147). -/
def execPop (s : State) : Host.Outcome State Fault Refusal := .next s.emptySlot

/-- The result-kind code, 0 for NONE (30_encoding R90). -/
def resultCode : Option Result → ReadWord
  | none => 0
  | some (.battery _) => 1
  | some (.cell _ _) => 2
  | some (.info _) => 3
  | some (.truncated _) => 4
  | some (.unsupported _) => 5
  | some (.badCount _ _) => 6

/-- ACC_LEN: `|ACC|` in 16 bits; beyond 65535 the unbounded natural number (R33). -/
def State.accLen (s : State) : ReadValue :=
  if s.acc.length < 65536 then .word (BitVec.ofNat 16 s.acc.length) else .natural s.acc.length

/-- OUT_LEN: `|OUT_FRAME|`, 0 with the slot empty (R34); a free value where it does not fit (log 6). -/
def State.outLen (s : State) : ReadWord :=
  match s.slot with
  | none => 0
  | some F => if F.length < 65536 then BitVec.ofNat 16 F.length else Config.openOutLen F

/-- NAME_LEN of a frame: `max(0, N - 8)` (30_encoding R89); a free value where it does not fit (log 6). -/
def nameLen (F : List Byte) : ReadWord :=
  if F.length - 8 < 65536 then BitVec.ofNat 16 (F.length - 8) else Config.openNameLen F

/-- OUT_BYTE: `zext_16(OUT_FRAME[i])` for `i < OUT_LEN` (R37). DESIGN CHOICE (log 6): for a frame of more than 65535
bytes, whose OUT_LEN is free, every index below `|OUT_FRAME|` has its byte, whatever OUT_LEN reads. -/
def State.outByte (s : State) (i : Nat) : Option ReadWord :=
  s.slot.bind fun F => F[i]?.map zext16

/-- The FIELD indices 0 to 13 that hold a value for a result of a frame, `none` where the field does not belong to
the result's kind (R38). -/
def fieldOf (F : List Byte) (r : Result) (idx : Nat) : Option ReadWord :=
  match idx, r with
  | 0, _ => F[1]?.map zext16
  | 1, .battery b => some (pattern16 b.voltageRaw)
  | 2, .battery b => some (pattern16 b.currentRaw)
  | 3, .battery b => some (pattern16 b.chargeRaw)
  | 4, .battery b => some (pattern16 b.fullRaw)
  | 5, .battery b => some (zext16 b.status)
  | 6, .battery b => some (bit16 b.chargeOn)
  | 7, .battery b => some (bit16 b.dischargeOn)
  | 8, .battery b => some (pattern16 b.temp1Raw)
  | 9, .battery b => some (pattern16 b.temp2Raw)
  | 10, .cell n _ => some (BitVec.ofNat 16 n)
  | 11, .cell _ _ => (countRaw F).map pattern16
  | 11, .badCount _ _ => (countRaw F).map pattern16
  | 11, .truncated c => if c = 0x04 then (countRaw F).map pattern16 else none
  | 12, .info _ => some 4
  | 13, .info _ => some (nameLen F)
  | _, _ => none

/-- FIELD: indices from 14 are reserved and read 0 in every state; the others as `fieldOf` says, and no value with
the slot empty (R38, R39). -/
def State.field (s : State) (idx : Nat) : Option ReadWord :=
  if 14 ≤ idx then some 0
  else s.slot.bind fun F => (extract F).bind fun r => fieldOf F r idx

/-- CELL: `cells[i]` of a CELL result for `i < numcells` (R37). -/
def State.cell (s : State) (i : Nat) : Option ReadWord :=
  match s.result with
  | some (.cell _ cells) => cells[i]?.map pattern16
  | _ => none

/-- The read port `rd(sel, idx)` over the read map of R37, `none` where a read has no value (R39). -/
def rd (s : State) (sel : BitVec 4) (idx : BitVec 16) : Option ReadValue :=
  match sel.toNat with
  | 0 => some (.word s.statusWord)
  | 1 => some s.accLen
  | 2 => some (.word s.outLen)
  | 3 => some (.word (resultCode s.result))
  | 4 => (s.outByte idx.toNat).map .word
  | 5 => (s.field idx.toNat).map .word
  | 6 => (s.cell idx.toNat).map .word
  | _ => some (.word 0)

/-- A read by the consumer: the answer is seen, and a read without a value is recorded as a fault of the reader;
nothing else changes (10_state R36, R39). -/
def State.performRead (s : State) (sel : BitVec 4) (idx : BitVec 16) : State :=
  let seen := s.observe (.read sel idx (rd s sel idx))
  if (rd s sel idx).isNone then seen.recordReadFault else seen

end Sys2Proof.Machine
end

