-- ==== Sys2Proof/Machine/FrameDecoder.lean ====
section
/-!
DEFINITION. The frame decoder's operations NOP, PUSH, EOC, CLR and the illegal word (40_frame_decoder).
-/

namespace Sys2Proof.Machine

/-- NOP: no state change (R101). -/
def execNop (s : State) : Host.Outcome State Fault Refusal := .next s

/-- PUSH b: nothing while OVF = 1, the overflow guard on a full accumulator, else the byte is appended (R102, R106,
R107). -/
def execPush (b : Byte) (s : State) : Host.Outcome State Fault Refusal :=
  if s.ovf then .next s
  else if s.accFull then .next s.raiseOvf
  else .next (s.appendAcc b)

/-- EOC: nothing while OVF = 1; held on a full slot, where the state stays and the port keeps the word (`holds`);
else the whole accumulator is emitted if it closes (R103). -/
def execEoc (s : State) : Host.Outcome State Fault Refusal :=
  if s.ovf then .next s
  else if s.outValid then .next s
  else if closes s.acc then .next s.emitAcc
  else .next s

/-- CLR: the soft reset (R104). -/
def execClr (s : State) : Host.Outcome State Fault Refusal := .next s.clear

/-- An illegal operation word raises ILL, in every state, whichever word it is (R105, 60_exceptions R196). -/
def execIllegal (_w : OpWord) (s : State) : Host.Outcome State Fault Refusal := .next s.raiseIll

end Sys2Proof.Machine
end

