-- ==== Sys2Proof/Machine/Dispatch.lean ====
section
/-!
DEFINITION. The dispatch: one arm per row of spec/opcode_table.json, each a direct call of its meaning.
-/

namespace Sys2Proof.Machine

def exec (i : Instr) (s : State) : Host.Outcome State Fault Refusal :=
  match i with
  | .nop => Sys2Proof.Machine.execNop s
  | .push b => Sys2Proof.Machine.execPush b s
  | .eoc => Sys2Proof.Machine.execEoc s
  | .encDischargeOn => Sys2Proof.Machine.execEncDischargeOn s
  | .encDischargeOff => Sys2Proof.Machine.execEncDischargeOff s
  | .encChargeOn => Sys2Proof.Machine.execEncChargeOn s
  | .encChargeOff => Sys2Proof.Machine.execEncChargeOff s
  | .encRequestRead => Sys2Proof.Machine.execEncRequestRead s
  | .encRequestCellVoltage => Sys2Proof.Machine.execEncRequestCellVoltage s
  | .encRequestInfo => Sys2Proof.Machine.execEncRequestInfo s
  | .clr => Sys2Proof.Machine.execClr s
  | .illegal w => Sys2Proof.Machine.execIllegal w s
  | .pop => Sys2Proof.Machine.execPop s
  | .decBatt => Sys2Proof.Machine.execDecBatt s
  | .decCell => Sys2Proof.Machine.execDecCell s
  | .decInfo => Sys2Proof.Machine.execDecInfo s
  | .decUnsupported cmd => Sys2Proof.Machine.execDecUnsupported cmd s

end Sys2Proof.Machine
end

