-- ==== Sys2Proof/Machine/Ports.lean ====
section
/-!
DEFINITION. The turns of the three agents over the ports (00_scope R18, 30_encoding R72), and how an operation is
placed where the next step takes it.
-/

namespace Sys2Proof.Machine

/-- The producer's turn: the offered word is held, and stays, or it is accepted, leaves the port and takes effect
(30_encoding R72, 20_memory R61). With no word offered nothing happens. -/
def producerTurn (s : State) : Host.Outcome State Fault Refusal :=
  match s.input with
  | [] => .next s
  | w :: ws => if holds (decodeWord w) s then .next s else exec (decodeWord w) (s.withInput ws)

/-- The consumer's look at RESULT: the command byte of the frame in the slot selects the arm that works
(41_payload_extractor R131); with the slot empty, RESULT is NONE (10_state R28). -/
def lookTurn (s : State) : Host.Outcome State Fault Refusal :=
  match s.slot.bind fun F => F[1]? with
  | none => .next (s.observe (.result none))
  | some cmd => exec (decodeCommand cmd) s

/-- The consumer's turn (00_scope R18). -/
def consumerTurn (a : ConsumerAction) (s : State) : Host.Outcome State Fault Refusal :=
  match a with
  | .read sel idx => .next (s.performRead sel idx)
  | .look => lookTurn s
  | .pop => exec .pop s

/-- The reset input (70_reset_and_hazards R220). -/
def resetTurn (s : State) : Host.Outcome State Fault Refusal := .next s.clear

/-- One turn of one agent. -/
def takeTurn (t : Turn) (s : State) : Host.Outcome State Fault Refusal :=
  match t with
  | .producer => producerTurn s
  | .consumer a => consumerTurn a s
  | .reset => resetTurn s

/-- The next turn of the schedule, taken; with no turn scheduled no agent moves and the state stays (00_scope R17). -/
def nextTurn (s : State) : Host.Outcome State Fault Refusal :=
  match s.schedule with
  | [] => .next s
  | t :: ts => takeTurn t (s.withSchedule ts)

/-- A frame that selects the arm of command byte `c` and is long enough for each arm to read its fields. -/
def frameForCommand (c : Byte) : List Byte := [startMarker, c] ++ List.replicate 31 0 ++ [endMarker]

/-- The state with an operation placed where the next step takes it: a word offered first on the input port, a frame
of that command byte in the slot (the one there, if it has it already), or a POP strobe, and the turn that takes it
first in the schedule (log 10). -/
def State.present (e : Encoding) (s : State) : State :=
  match e with
  | .word w => { s with input := w :: s.input, schedule := .producer :: s.schedule }
  | .command c =>
    { s with
      slot := if (s.slot.bind fun F => F[1]?) = some c then s.slot else some (frameForCommand c)
      schedule := .consumer .look :: s.schedule }
  | .strobe => { s with schedule := .consumer .pop :: s.schedule }

/-- The state with the operation a row's bits stand for placed where the next step takes it; bits that stand for no
operation change nothing. -/
def State.presentNumber (nbits w : Nat) (s : State) : State :=
  match Encoding.ofNumber nbits w with
  | .ok e => s.present e
  | .error _ => s

/-- A run placed from outside the machine: the producer offers `ws` in order and the agents take the turns `ts`
(log 10). -/
def State.load (ws : List OpWord) (ts : List Turn) (s : State) : State := { s with input := ws, schedule := ts }

end Sys2Proof.Machine
end

