-- ==== Sys2Proof/Machine/Step.lean ====
section
/-!
DEFINITION. The step: the next turn of the schedule. Everything it does stands in Machine/Ports.lean.
-/

namespace Sys2Proof.Machine

/-- One atomic step of FDX (00_scope R17). -/
def step (s : State) : Host.Outcome State Fault Refusal := nextTurn s

/-- `s` with the operation of a row's bits placed so that the very next step runs it. -/
def State.withFetchWord (s : State) (nbits w : Nat) : State := s.presentNumber nbits w

end Sys2Proof.Machine
end

