-- ==== Sys2Proof/Machine/Scaling.lean ====
section
/-!
DEFINITION. The consumer-side reference functions of 41_payload_extractor R150 over exact rationals; FDX itself scales
nothing (30_encoding R86).
-/

namespace Sys2Proof.Machine

/-- `volts(voltage_raw)`. -/
def volts (voltageRaw : Int) : ℚ := (voltageRaw : ℚ) / 100

/-- `amps(current_raw)`, "same encoding". -/
def amps (currentRaw : Int) : ℚ := (currentRaw : ℚ) / 100

/-- `celsius(tN_raw) = tN_raw / 10 - 273.15`. -/
def celsius (tRaw : Int) : ℚ := (tRaw : ℚ) / 10 - 27315 / 100

/-- `charge`, raw coulometric units. -/
def charge (chargeRaw : Int) : ℚ := chargeRaw

/-- `full`, "same units" as the charge. -/
def full (fullRaw : Int) : ℚ := fullRaw

/-- `cell_mV(cells[i])`. -/
def cellMillivolts (cell : Int) : ℚ := cell

/-- `numcells = count_raw / 2`, as an exact rational; a count where it is even and not negative (30_encoding R87). -/
def numcellsOfRaw (countRaw : Int) : ℚ := (countRaw : ℚ) / 2

/-- Hundredths of a volt, for a consumer working in integers. -/
def centivolts (voltageRaw : Int) : Int := voltageRaw

/-- Hundredths of an ampere. -/
def centiamps (currentRaw : Int) : Int := currentRaw

/-- Hundredths of a degree Celsius, with no rounding and no clamping (R151). -/
def centidegrees (tRaw : Int) : Int := 10 * tRaw - 27315

end Sys2Proof.Machine
end

