-- ==== Sys2Proof/Machine/Assembler.lean ====
section
/-!
DEFINITION. The assembler syntax of 30_encoding R77: one operation a line, and the pseudo-operation FEED.
-/

namespace Sys2Proof.Machine

/-- A line of assembler text (R77). `encSeven` is `ENC 7`, which "spells the illegal word 0x307". -/
inductive AsmLine where
  | nop
  | push (b : Byte)
  | eoc
  | clr
  | enc (n : CommandName)
  | encSeven
  | feed (chunk : List Byte)
deriving DecidableEq, Repr

/-- The word of a PUSH of one byte (30_encoding R71). -/
def pushWord (b : Byte) : OpWord := opWord 0x1 b

/-- The word of EOC (30_encoding R71). -/
def eocWord : OpWord := opWord 0x2 0x00

/-- The word of CLR (30_encoding R71). -/
def clrWord : OpWord := opWord 0xF 0x00

/-- The word of ENC n (42_command_table R170). -/
def encWord (n : CommandName) : OpWord := opWord 0x3 n.code

/-- `FEED b0 … bk-1`: one PUSH per byte, in order, then one EOC; with no bytes, a lone EOC (R77). -/
def feedWords (chunk : List Byte) : List OpWord := chunk.map pushWord ++ [eocWord]

/-- The words a line assembles to (R77). -/
def AsmLine.words : AsmLine → List OpWord
  | .nop => [opWord 0x0 0x00]
  | .push b => [pushWord b]
  | .eoc => [eocWord]
  | .clr => [clrWord]
  | .enc n => [encWord n]
  | .encSeven => [0x307]
  | .feed chunk => feedWords chunk

/-- A program: its lines' words, in order. -/
def assemble (lines : List AsmLine) : List OpWord := lines.flatMap AsmLine.words

/-- The name of a command as R91 spells it. -/
def CommandName.spelling : CommandName → List Char
  | .dischargeOn => "discharge_on".toList
  | .dischargeOff => "discharge_off".toList
  | .chargeOn => "charge_on".toList
  | .chargeOff => "charge_off".toList
  | .requestRead => "request_read".toList
  | .requestCellVoltage => "request_cell_voltage".toList
  | .requestInfo => "request_info".toList

/-- The seven names (R91). -/
def allCommands : List CommandName :=
  [.dischargeOn, .dischargeOff, .chargeOn, .chargeOff, .requestRead, .requestCellVoltage, .requestInfo]

/-- The value of a hexadecimal digit, capital or small. -/
def hexDigit (c : Char) : Option Nat :=
  if '0'.toNat ≤ c.toNat ∧ c.toNat ≤ '9'.toNat then some (c.toNat - '0'.toNat)
  else if 'A'.toNat ≤ c.toNat ∧ c.toNat ≤ 'F'.toNat then some (c.toNat - 'A'.toNat + 10)
  else if 'a'.toNat ≤ c.toNat ∧ c.toNat ≤ 'f'.toNat then some (c.toNat - 'a'.toNat + 10)
  else none

/-- A byte written as two hexadecimal digits (R77). -/
def hexByte : List Char → Option Byte
  | [hi, lo] => (hexDigit hi).bind fun h => (hexDigit lo).map fun l => BitVec.ofNat 8 (16 * h + l)
  | _ => none

/-- The words of a line, cut at its spaces. -/
def tokens : List Char → List (List Char)
  | [] => []
  | c :: cs =>
    if c = ' ' then tokens cs
    else
      match cs with
      | [] => [[c]]
      | d :: _ =>
        if d = ' ' then [c] :: tokens cs
        else
          match tokens cs with
          | [] => [[c]]
          | t :: ts => (c :: t) :: ts

/-- One line of assembler text, `none` where it is none (R77). -/
def parseTokens : List (List Char) → Option AsmLine
  | [] => none
  | op :: args =>
    if op = "NOP".toList ∧ args = [] then some .nop
    else if op = "EOC".toList ∧ args = [] then some .eoc
    else if op = "CLR".toList ∧ args = [] then some .clr
    else if op = "FEED".toList then (args.mapM hexByte).map .feed
    else
      match args with
      | [a] =>
        if op = "ENC".toList then
          if a = ['7'] then some .encSeven
          else (allCommands.find? fun n => CommandName.spelling n = a).map .enc
        else if op = "PUSH".toList then
          match a with
          | '0' :: 'x' :: digits => (hexByte digits).map .push
          | _ => none
        else none
      | _ => none

/-- One line of assembler text. -/
def parseLine (line : List Char) : Option AsmLine := parseTokens (tokens line)

end Sys2Proof.Machine
end

