-- ==== Sys2Proof/Safety.lean ====
section
/-!
DEFINITION. What the claims about FDX speak of: a run without recorded faults, the invariant of the state, the
environment's duties, the words between two chunks, and runs under a schedule that never ends.
-/

namespace Sys2Proof.Machine

/-- A state is final only where the run recorded no fault ("a model records a fault and the state is not final", 93). -/
def State.isFinal (s : State) : Bool := decide (s.faults = [])

/-- The premise "OVF = 0 and ILL = 0" of 60_exceptions R200. -/
def State.flagsClear (s : State) : Bool := !s.ovf && !s.ill

/-- What the slot may hold: nothing, or a RawFrame within the capacity (10_state R26, 20_memory R51). -/
def State.slotOk (s : State) : Bool :=
  match s.slot with
  | none => true
  | some F => closes F && s.cfg.holdsBytes F.length

/-- The invariant of FDX: a legal build (00_scope R8), ACC within the capacity (10_state R23), a RawFrame in the slot
(10_state R26), and an overflow flag that is set only over a full accumulator (60_exceptions R190, "ACC_LEN = c"). -/
def State.inv (s : State) : Bool :=
  s.cfg.legal && s.cfg.holdsBytes s.acc.length && s.slotOk && (!s.ovf || s.accFull)

/-- TX holds whole command sequences, one after the other (20_memory R58, 42_command_table R182). -/
def State.txWhole (s : State) : Prop := ∃ names : List CommandName, s.tx = names.flatMap cmdRom

/-- The flags' faults stand in the record of the run (60_exceptions R200). -/
def State.flagsRecorded (s : State) : Prop :=
  (s.ovf = true → Fault.accumulatorOverflow ∈ s.faults) ∧ (s.ill = true → Fault.illegalWord ∈ s.faults)

/-- A word that feeds nothing to the decoder: a NOP, or an ENC for a command the session sends. -/
def feedsNothing (w : OpWord) : Bool :=
  decide (decodeWord w = .nop) || allCommands.any fun n => decide (decodeWord w = n.instr)

/-- The words on the port are those of a producer that keeps the duties of R223: those that are no NOP and no ENC are,
event by event, one PUSH per byte and exactly one EOC; no CLR and no illegal word. R223 does not say whether a NOP may
be issued, nor an ENC between the PUSHes of one event: DESIGN CHOICE (log 14), both may stand anywhere. -/
def dutifulWords (ws : List OpWord) : Prop :=
  ∃ events : List (List Byte), (ws.filter fun w => !feedsNothing w) = events.flatMap feedWords

/-- The bytes the PUSH words of a list push, in order. -/
def pushedBytes (ws : List OpWord) : List Byte :=
  ws.filterMap fun w =>
    match decodeWord w with
    | .push b => some b
    | _ => none

/-- The words end no chunk and clear nothing: no EOC and no CLR among them. -/
def insideChunk (ws : List OpWord) : Bool :=
  ws.all fun w => decide (decodeWord w ≠ .eoc) && decide (decodeWord w ≠ .clr)

/-- Byte `i` of a frame, for an index the frame has. -/
def byteAt (F : List Byte) (i : Nat) : Byte := F.getD i 0

/-- The 16-bit pattern at offset `o` of a frame, big-endian (20_memory R52). -/
def pairAt (F : List Byte) (o : Nat) : ReadWord := byteAt F o ++ byteAt F (o + 1)

/-- The signed field at offset `o` of a frame (20_memory R52). -/
def fieldAt (F : List Byte) (o : Nat) : Int := s16 (byteAt F o) (byteAt F (o + 1))

/-- The "kinds" column of 10_state R38 for a FIELD index below 14: the result kinds the field belongs to. -/
def fieldBelongs (r : Result) (idx : Nat) : Bool :=
  match r with
  | .battery _ => decide (idx ≤ 9)
  | .cell _ _ => decide (idx = 0) || decide (idx = 10) || decide (idx = 11)
  | .info _ => decide (idx = 0) || decide (idx = 12) || decide (idx = 13)
  | .truncated cmd => decide (idx = 0) || (decide (idx = 11) && decide (cmd = 0x04))
  | .unsupported _ => decide (idx = 0)
  | .badCount _ _ => decide (idx = 0) || decide (idx = 11)

/-- The "valid when" condition of a read (10_state R37, R38): reserved selectors and FIELD indices are always
valid. The `i < OUT_LEN` of OUT_BYTE is taken against `|OUT_FRAME|`, for a frame of more than 65535 bytes by the
model's choice (log 6). -/
def readIsValid (s : State) (sel : BitVec 4) (idx : BitVec 16) : Prop :=
  (sel = 4 → ∃ F, s.slot = some F ∧ idx.toNat < F.length) ∧
  (sel = 5 → idx.toNat < 14 → ∃ r, s.result = some r ∧ fieldBelongs r idx.toNat = true) ∧
  (sel = 6 → ∃ n cells, s.result = some (.cell n cells) ∧ idx.toNat < n)

/-- The 16-bit value of the two bytes before the end marker of a command sequence (30_encoding R85). -/
def trailer (L : List Byte) : Nat := (byteAt L (L.length - 3)).toNat * 256 + (byteAt L (L.length - 2)).toNat

/-- The value R85 gives for it: `(0x10000 - (sum of L[2] .. L[|L|-4])) mod 0x10000`. -/
def trailerFormula (L : List Byte) : Nat :=
  (0x10000 - ((slice L 2 (L.length - 3)).map BitVec.toNat).sum) % 0x10000

/-- No reset among the turns. -/
def noReset (ts : List Turn) : Bool := ts.all fun t => decide (t ≠ .reset)

/-- No CLR among the words. -/
def noClr (ws : List OpWord) : Bool := ws.all fun w => decide (decodeWord w ≠ .clr)

/-- The turns that run one chunk through the whole block: a producer turn per word, then a look at RESULT, then a
POP. -/
def chunkTurns (chunk : List Byte) : List Turn :=
  List.replicate (chunk.length + 1) .producer ++ [.consumer .look, .consumer .pop]

/-- What an ENC row says: its word, its bytes, in order and after everything sent before, and nothing else. -/
def encSends (i : Instr) (w : OpWord) (bytes : List Byte) (check : Nat) : Prop :=
  encode i = .word w ∧ decodeWord w = i ∧ trailerFormula bytes = check ∧ trailer bytes = check ∧
  ∀ s : State, exec i s = .next { s with tx := s.tx ++ bytes } ∧ holds i s = false

/-- What the source's software does with a list of chunks: `feed` on each (40_frame_decoder R109), `decode` on each
frame; the accumulator left, and the outcome of each chunk, `none` where no frame was emitted. -/
def software (acc : List Byte) : List (List Byte) → List Byte × List (Option Result)
  | [] => (acc, [])
  | c :: cs =>
    let one := feed acc c
    let rest := software one.1 cs
    (rest.1, (one.2.head?.bind extract) :: rest.2)

/-- An infinite run under the turns `σ`: each state follows from the one before it by one turn (70 R232). -/
def IsRun (σ : Nat → Turn) (r : Nat → State) : Prop := ∀ n, takeTurn (σ n) (r n) = .next (r (n + 1))

/-- Weak fairness of the producer and of a consumer that means to POP (70 R232). -/
def WeaklyFair (σ : Nat → Turn) : Prop :=
  (∀ n, ∃ m, n ≤ m ∧ σ m = .producer) ∧ (∀ n, ∃ m, n ≤ m ∧ σ m = .consumer .pop)

end Sys2Proof.Machine
end

