-- ==== Sys2Proof/Certificates/Slice0/Obligations.lean ====
section
/-!
DEFINITION. The statements for the provers. Each docstring names the rule of spec/ it formalises.
-/

open Sys2Proof Sys2Proof.Machine

/-! ### Reset -/

/-- R41: the elements after reset, for State.reset and for every build; a reset turn gives them in any state, keeps TX
and leaves every command its table sequence; the scalar reads are 0. -/
def Obligations.ResetLeavesTheResetValues : Prop :=
  (∀ s : State, (s = State.reset ∨ ∃ c : Config, s = State.initial c) →
    s.acc = [] ∧ s.slot = none ∧ s.ovf = false ∧ s.ill = false ∧
    ∀ idx, rd s 0 idx = some (.word 0) ∧ rd s 1 idx = some (.word 0) ∧ rd s 2 idx = some (.word 0) ∧
      rd s 3 idx = some (.word 0)) ∧
  (∀ s : State, ∃ t, resetTurn s = .next t ∧ t.acc = [] ∧ t.slot = none ∧ t.ovf = false ∧ t.ill = false ∧
    t.tx = s.tx ∧ (∀ n : CommandName, exec n.instr t = .next { t with tx := s.tx ++ cmdRom n }) ∧
    ∀ idx, rd t 0 idx = some (.word 0) ∧ rd t 1 idx = some (.word 0) ∧ rd t 2 idx = some (.word 0) ∧
      rd t 3 idx = some (.word 0))

/-- R220: a reset turn at any step sets the four elements, keeps everything else (TX, the offered word), and an EOC
held before it is accepted at the producer's next turn, with nothing emitted. -/
def Obligations.ResetInputKeepsTheOfferedWord : Prop :=
  ∀ (s : State) (ts : List Turn), s.schedule = .reset :: ts →
    ∃ t, step s = .next t ∧
      t = { s with acc := [], slot := none, ovf := false, ill := false, schedule := ts } ∧
      ∀ (ws : List OpWord) (us : List Turn), s.input = eocWord :: ws → ts = .producer :: us →
        ∃ u, step t = .next u ∧ u = { t with input := ws, schedule := us }

/-! ### The frame decoder -/

/-- R101: NOP is the word 0x000, never held, and leaves every state as it is. -/
def Obligations.NopLeavesEveryState : Prop :=
  encode .nop = .word 0x000 ∧ decodeWord 0x000 = .nop ∧
  ∀ s : State, exec .nop s = .next s ∧ holds .nop s = false

/-- R102, R73: the word `0x1bb` pushes its operand. PUSH is never held, never emits, appends any byte alike, raises
OVF on a full accumulator and does nothing while OVF is set. -/
def Obligations.PushAppendsItsByte : Prop :=
  ∀ (b : Byte) (s : State),
    encode (.push b) = .word (BitVec.ofNat 12 (0x100 + b.toNat)) ∧
    decodeWord (BitVec.ofNat 12 (0x100 + b.toNat)) = .push b ∧
    holds (.push b) s = false ∧
    (s.ovf = true → exec (.push b) s = .next s) ∧
    (s.ovf = false → s.cfg.accCap = some s.acc.length →
      exec (.push b) s = .next { s with ovf := true, faults := s.faults ++ [.accumulatorOverflow] }) ∧
    (s.ovf = false → s.cfg.accCap ≠ some s.acc.length →
      exec (.push b) s = .next { s with acc := s.acc ++ [b] })

/-- R103: EOC with OVF set does nothing; on a full slot it is held and the state stays; on an empty slot the whole
accumulator is emitted if it closes, else nothing changes. A hold ends only by a POP or a reset turn. -/
def Obligations.EocEmitsHoldsOrWaits : Prop :=
  encode .eoc = .word 0x200 ∧ decodeWord 0x200 = .eoc ∧
  (∀ s : State,
    (s.ovf = true → exec .eoc s = .next s ∧ holds .eoc s = false) ∧
    (∀ F, s.ovf = false → s.slot = some F → exec .eoc s = .next s ∧ holds .eoc s = true) ∧
    (s.ovf = false → s.slot = none → closes s.acc = true →
      exec .eoc s = .next { s with slot := some s.acc, acc := [] } ∧ holds .eoc s = false) ∧
    (s.ovf = false → s.slot = none → closes s.acc = false → exec .eoc s = .next s ∧ holds .eoc s = false)) ∧
  (∀ (s t : State) (ws : List OpWord) (u : Turn) (ts : List Turn), s.input = eocWord :: ws →
    holds .eoc s = true → s.schedule = u :: ts → step s = .next t →
    (t.input = s.input ∧ holds .eoc t = true) ∨ u = .consumer .pop ∨ u = .reset)

/-- R104: CLR does to the state what the reset input does, in every state, and is the only operation that clears OVF
or ILL. -/
def Obligations.ClrEqualsTheResetInput : Prop :=
  encode .clr = .word 0xF00 ∧ decodeWord 0xF00 = .clr ∧
  (∀ s : State, exec .clr s = .next { s with acc := [], slot := none, ovf := false, ill := false } ∧
    holds .clr s = false ∧ exec .clr s = resetTurn s) ∧
  (∀ (i : Instr) (s t : State), exec i s = .next t →
    (s.ovf = true ∧ t.ovf = false ∨ s.ill = true ∧ t.ill = false) → i = .clr)

/-- R105, R196: an illegal word is accepted in every state, raises ILL, is recorded as a fault of the producer and
changes nothing else; a PUSH never raises ILL. -/
def Obligations.IllegalWordRaisesIllAlone : Prop :=
  (∀ (w : OpWord) (s : State), isIllegalWord w = true →
    decodeWord w = .illegal w ∧ holds (decodeWord w) s = false ∧
    exec (decodeWord w) s = .next { s with ill := true, faults := s.faults ++ [.illegalWord] }) ∧
  (∀ (b : Byte) (s t : State), exec (.push b) s = .next t → t.ill = s.ill)

/-- R76: the illegal operation words are exactly the listed ones, and an illegal word has the effect of R105. -/
def Obligations.IllegalWordsAreExactlyTheListed : Prop :=
  (∀ w : OpWord, (∃ v, decodeWord w = .illegal v) ↔
    ((0x4 ≤ w.toNat / 256 ∧ w.toNat / 256 ≤ 0xE) ∨ (0x001 ≤ w.toNat ∧ w.toNat ≤ 0x0FF) ∨
      (0x201 ≤ w.toNat ∧ w.toNat ≤ 0x2FF) ∨ (0xF01 ≤ w.toNat ∧ w.toNat ≤ 0xFFF) ∨
      (0x307 ≤ w.toNat ∧ w.toNat ≤ 0x3FF))) ∧
  (∀ (w v : OpWord) (s : State), decodeWord w = .illegal v →
    v = w ∧ ∃ t, exec (decodeWord w) s = .next t ∧ t.ill = true ∧ { t with ill := s.ill, faults := s.faults } = s)

/-- R106: the guard at `|ACC| = c`; and a run in which it never fires is, state for state, a run of the unbounded
build. -/
def Obligations.UnfiredGuardChangesNothing : Prop :=
  (∀ (s : State) (b : Byte) (c : Nat), s.cfg.accCap = some c → s.ovf = false → s.acc.length = c →
    ∃ t, exec (.push b) s = .next t ∧ t.ovf = true ∧ t.acc = s.acc) ∧
  (∀ (k : Nat) (s t : State), Host.Core.run Sys2Proof.core k s = .next t →
    t.faults.count .accumulatorOverflow = s.faults.count .accumulatorOverflow →
    Host.Core.run Sys2Proof.core k { s with cfg := Config.unbounded } = .next { t with cfg := Config.unbounded })

/-- R107: while OVF is set PUSH and EOC are accepted and do nothing, the other operations, reads and POP work as
ever, and only a CLR or a reset ends it. -/
def Obligations.OverflowLocksUntilClrOrReset : Prop :=
  ∀ s : State, s.ovf = true →
    (∀ b, exec (.push b) s = .next s ∧ holds (.push b) s = false) ∧
    (exec .eoc s = .next s ∧ holds .eoc s = false) ∧
    exec .nop s = .next s ∧
    (∀ n : CommandName, exec n.instr s = .next { s with tx := s.tx ++ cmdRom n }) ∧
    (∀ w, exec (.illegal w) s = .next { s with ill := true, faults := s.faults ++ [.illegalWord] }) ∧
    (∃ t, exec .clr s = .next t ∧ t.ovf = false) ∧
    exec .pop s = .next { s with slot := none } ∧
    (∀ sel idx, sel ≠ 0 → rd s sel idx = rd { s with ovf := false } sel idx) ∧
    (∀ t, step s = .next t → t.ovf = true ∨ s.schedule.head? = some .reset ∨
      (s.schedule.head? = some .producer ∧ s.input.head? = some clrWord))

/-- R24: a step that changes ACC is a PUSH, an EOC, a CLR or a reset. -/
def Obligations.AccIsWrittenOnlyByItsOperations : Prop :=
  ∀ s t : State, step s = .next t → t.acc ≠ s.acc →
    s.schedule.head? = some .reset ∨
    (s.schedule.head? = some .producer ∧
      ∃ w ws, s.input = w :: ws ∧
        ((∃ b, decodeWord w = .push b) ∨ decodeWord w = .eoc ∨ decodeWord w = .clr))

/-- R110: FEED equals the source's `feed`. The words up to the EOC push the chunk, with any NOP, ENC or illegal words
and any consumer turns between them, no reset, and no guard firing. When the EOC is accepted the accumulator and the
slot are what `Feed` gives. -/
def Obligations.FeedEqualsTheSourceFeed : Prop :=
  ∀ (ws rest : List OpWord) (s mid t : State) (k : Nat),
    s.input = ws ++ eocWord :: rest → insideChunk ws = true → noReset s.schedule = true → s.ovf = false →
    Host.Core.run Sys2Proof.core k s = .next mid → mid.input = eocWord :: rest → mid.ovf = false →
    step mid = .next t → t.input = rest →
    t.acc = (feed s.acc (pushedBytes ws)).1 ∧
    (∀ a, (feed s.acc (pushedBytes ws)).2 = [a] → t.slot = some a) ∧
    ((feed s.acc (pushedBytes ws)).2 = [] → t.slot = mid.slot)

/-- R111: just after an accepted EOC with OVF = 0, a CLR or a reset, ACC does not close; the length condition is
needed, as `[DD 77]` shows. -/
def Obligations.AtRestTheAccumulatorDoesNotClose : Prop :=
  (∀ s t : State, s.ovf = false → holds .eoc s = false → exec .eoc s = .next t → closes t.acc = false) ∧
  (∀ s t : State, exec .clr s = .next t → closes t.acc = false) ∧
  (∀ s t : State, resetTurn s = .next t → closes t.acc = false) ∧
  (∀ s : State, s.acc = [0xDD, 0x77] → exec .eoc s = .next s) ∧
  (∃ s t : State, ∃ b, closes s.acc = false ∧ exec (.push b) s = .next t ∧ closes t.acc = true)

/-- R117: with an accumulator that does not close, no run without a PUSH word emits a frame, however many EOCs it
holds. -/
def Obligations.EmptyChunksNeverEmit : Prop :=
  ∀ (k : Nat) (s t : State), closes s.acc = false → pushedBytes s.input = [] →
    Host.Core.run Sys2Proof.core k s = .next t →
    (t.slot = s.slot ∨ t.slot = none) ∧ closes t.acc = false

/-- R100, R112: the boundary test looks at the length, the first byte and the last byte, and at nothing else. -/
def Obligations.ClosingDependsOnTheEndsAlone : Prop :=
  (∀ A : List Byte, closes A = true ↔ A.length > 4 ∧ A[0]? = some 0xDD ∧ A[A.length - 1]? = some 0x77) ∧
  (∀ A B : List Byte, A.length = B.length → A[0]? = B[0]? → A[A.length - 1]? = B[B.length - 1]? →
    closes A = closes B)

/-- R113: frames that arrive in one chunk leave as one frame, and the first one's command byte alone selects the arm
that decodes it (R131). -/
def Obligations.FramesInOneChunkMerge : Prop :=
  ∀ F G : List Byte, closes F = true → closes G = true →
    feed [] (F ++ G) = ([], [F ++ G]) ∧
    (∀ s : State, s.ovf = false → s.slot = none → s.acc = F ++ G →
      exec .eoc s = .next { s with slot := some (F ++ G), acc := [] }) ∧
    ∃ c r, F[1]? = some c ∧ (F ++ G)[1]? = some c ∧ extract (F ++ G) = some r ∧
      (c = 3 → r = .truncated 3 ∨ ∃ b, r = .battery b) ∧
      (c = 4 → r = .truncated 4 ∨ (∃ raw, r = .badCount 4 raw) ∨ ∃ n cells, r = .cell n cells) ∧
      (c = 5 → ∃ name, r = .info name) ∧
      (c ≠ 3 → c ≠ 4 → c ≠ 5 → r = .unsupported c)

/-- R114: a chunk that ends on an interior end marker emits a frame that the same bytes in one chunk do not. -/
def Obligations.ChunkBoundariesChangeTheFrames : Prop :=
  ∀ a b : List Byte, closes a = true → b ≠ [] →
    (feed [] a).2 = [a] ∧ (feed [] a).1 = [] ∧ a ∉ (feed [] (a ++ b)).2 ∧
    (b.head? ≠ some 0xDD → (feed (feed [] a).1 b).2 = [] ∧ (feed (feed [] a).1 b).1 = b)

/-- R115: once ACC starts with another byte than the start marker, no frame is emitted until a CLR or a reset; ACC grows
by every pushed byte, without a guard for ever, with a guard until it fires. -/
def Obligations.LeadingByteLocksTheDecoder : Prop :=
  ∀ (k : Nat) (s t : State) (b : Byte) (more : List Byte), s.acc = b :: more → b ≠ 0xDD →
    noReset s.schedule = true → noClr s.input = true → Host.Core.run Sys2Proof.core k s = .next t →
    (∃ grown, t.acc = s.acc ++ grown) ∧ (t.slot = s.slot ∨ t.slot = none) ∧
    (∀ used, s.input = used ++ t.input → s.ovf = false → t.ovf = false → t.acc = s.acc ++ pushedBytes used) ∧
    (s.cfg.accCap = none → t.ovf = s.ovf)

/-! ### The command table -/

/-- R171 to R177: the seven ENC operations, their words and their bytes, with each rule's trailer check. -/
def Obligations.EncSendsItsTableSequence : Prop :=
  encSends .encDischargeOn 0x300 [0xDD, 0x5A, 0xE1, 0x02, 0x00, 0x00, 0xFF, 0x1D, 0x77] 0xFF1D ∧
  encSends .encDischargeOff 0x301 [0xDD, 0x5A, 0xE1, 0x02, 0x00, 0x02, 0xFF, 0x1B, 0x77] 0xFF1B ∧
  encSends .encChargeOn 0x302 [0xDD, 0x5A, 0xE1, 0x02, 0x00, 0x00, 0xFF, 0x1D, 0x77] 0xFF1D ∧
  encSends .encChargeOff 0x303 [0xDD, 0x5A, 0xE1, 0x02, 0x00, 0x01, 0xFF, 0x1C, 0x77] 0xFF1C ∧
  encSends .encRequestRead 0x304 [0xDD, 0xA5, 0x03, 0x00, 0xFF, 0xFD, 0x77] 0xFFFD ∧
  encSends .encRequestCellVoltage 0x305 [0xDD, 0xA5, 0x04, 0x00, 0xFF, 0xFC, 0x77] 0xFFFC ∧
  encSends .encRequestInfo 0x306 [0xDD, 0xA5, 0x05, 0x00, 0xFF, 0xFB, 0x77] 0xFFFB

/-- R84, R85: every sequence starts with the start marker, ends with the end marker, and its trailer is the two's
complement of the sum before it; fed back to FDX it is emitted and decodes as UNSUPPORTED of its byte 1 (R139). -/
def Obligations.CommandSequencesAreFrames : Prop :=
  ∀ n : CommandName, closes (cmdRom n) = true ∧ trailer (cmdRom n) = trailerFormula (cmdRom n) ∧
    feed [] (cmdRom n) = ([], [cmdRom n]) ∧
    extract (cmdRom n) = some (.unsupported (byteAt (cmdRom n) 1)) ∧
    (byteAt (cmdRom n) 1 = 0xA5 ∧ byteAt (cmdRom n) 2 ∈ [(3 : Byte), 4, 5] ∨
      byteAt (cmdRom n) 1 = 0x5A ∧ byteAt (cmdRom n) 2 = 0xE1)

/-- R180, R181: ENC is accepted in every state, reads nothing, changes no state element and sends the same bytes
each time. -/
def Obligations.EncIsIndependentOfTheDecoder : Prop :=
  ∀ (n : CommandName) (s t : State), exec n.instr s = .next t →
    holds n.instr s = false ∧ { t with tx := s.tx } = s ∧
    ∀ s' t' : State, exec n.instr s' = .next t' →
      ∃ bytes, t.tx = s.tx ++ bytes ∧ t'.tx = s'.tx ++ bytes

/-- R58 (the ENC clause): TX is only lengthened, and whole sequences stay whole at every step. -/
def Obligations.TxHoldsWholeSequences : Prop :=
  ∀ s t : State, step s = .next t →
    (∃ sent, t.tx = s.tx ++ sent ∧ (sent = [] ∨ ∃ n, sent = cmdRom n)) ∧ (s.txWhole → t.txWhole)

/-! ### The payload extractor -/

/-- R12: `s16` is the integer whose 16-bit two's-complement encoding is `{hi, lo}`. -/
def Obligations.S16IsTwosComplement : Prop :=
  ∀ hi lo : Byte,
    s16 hi lo = (hi ++ lo : BitVec 16).toInt ∧ pattern16 (s16 hi lo) = (hi ++ lo : BitVec 16) ∧
    (0x80 ≤ hi.toNat → s16 hi lo = hi.toNat * 256 + lo.toNat - 65536) ∧
    (hi.toNat < 0x80 → s16 hi lo = hi.toNat * 256 + lo.toNat)

/-- R133, R137: DEC.BATT. The record is read at the fixed offsets, TRUNCATED below 31 bytes, and the read port gives
the kind, CMD and the fields, big-endian. That exec of the arm puts the result on the consumer's trace, and changes
nothing else, is the model's choice (log 4). -/
def Obligations.BatteryFrameGivesItsFields : Prop :=
  ∀ (F : List Byte) (s : State), s.slot = some F → F[1]? = some 0x03 →
    (F.length < 31 → extract F = some (.truncated 0x03) ∧ ∀ idx, rd s 3 idx = some (.word 4)) ∧
    (31 ≤ F.length → extract F = some (.battery
      { voltageRaw := fieldAt F 4, currentRaw := fieldAt F 6, chargeRaw := fieldAt F 8, fullRaw := fieldAt F 10
        status := byteAt F 24, chargeOn := (byteAt F 24).getLsbD 0, dischargeOn := (byteAt F 24).getLsbD 1
        temp1Raw := fieldAt F 27, temp2Raw := fieldAt F 29 })) ∧
    exec .decBatt s = .next { s with observed := s.observed ++ [.result (extract F)] } ∧
    rd s 5 0 = some (.word 3) ∧
    (31 ≤ F.length → (∀ idx, rd s 3 idx = some (.word 1)) ∧
      rd s 5 1 = some (.word (pairAt F 4)) ∧ rd s 5 2 = some (.word (pairAt F 6)) ∧
      rd s 5 3 = some (.word (pairAt F 8)) ∧ rd s 5 4 = some (.word (pairAt F 10)) ∧
      rd s 5 5 = some (.word ((byteAt F 24).setWidth 16)) ∧
      rd s 5 6 = some (.word ((byteAt F 24 &&& 1).setWidth 16)) ∧
      rd s 5 7 = some (.word ((byteAt F 24 >>> 1 &&& 1).setWidth 16)) ∧
      rd s 5 8 = some (.word (pairAt F 27)) ∧ rd s 5 9 = some (.word (pairAt F 29)))

/-- R135, R136: DEC.CELL. BADCOUNT for a negative or odd count, TRUNCATED for a frame too short for its cells, else
exactly `k` cells in order; the read port gives the kind, CMD, COUNT_RAW and the cells. That exec of the arm puts the
result on the consumer's trace, and changes nothing else, is the model's choice (log 4). -/
def Obligations.CellFrameGivesItsCells : Prop :=
  ∀ (F : List Byte) (s : State), s.slot = some F → F[1]? = some 0x04 → 5 ≤ F.length →
    (fieldAt F 2 < 0 ∨ fieldAt F 2 % 2 = 1 →
      extract F = some (.badCount 0x04 (fieldAt F 2)) ∧ ∀ idx, rd s 3 idx = some (.word 6)) ∧
    (∀ k : Nat, fieldAt F 2 = 2 * k → F.length < 4 + 2 * k →
      extract F = some (.truncated 0x04) ∧ ∀ idx, rd s 3 idx = some (.word 4)) ∧
    (∀ k : Nat, fieldAt F 2 = 2 * k → 4 + 2 * k ≤ F.length →
      (∃ cells, extract F = some (.cell k cells) ∧ cells.length = k ∧
        ∀ i, i < k → cells[i]? = some (fieldAt F (4 + 2 * i))) ∧
      (∀ idx, rd s 3 idx = some (.word 2)) ∧ rd s 5 10 = some (.word (BitVec.ofNat 16 k)) ∧
      ∀ i, i < k → rd s 6 (BitVec.ofNat 16 i) = some (.word (pairAt F (4 + 2 * i)))) ∧
    rd s 5 0 = some (.word 4) ∧ rd s 5 11 = some (.word (pairAt F 2)) ∧
    exec .decCell s = .next { s with observed := s.observed ++ [.result (extract F)] }

/-- R138: DEC.INFO. The name is `F[4 .. N-4)`, never TRUNCATED, and the read port gives the kind, CMD, NAME_OFF, NAME_LEN
and the name bytes at OUT_BYTE from NAME_OFF on. That exec of the arm puts the result on the consumer's trace, and
changes nothing else, is the model's choice (log 4); so is OUT_BYTE of a frame of more than 65535 bytes (log 6). -/
def Obligations.InfoFrameGivesItsName : Prop :=
  ∀ (F : List Byte) (s : State), s.slot = some F → F[1]? = some 0x05 →
    (∃ name, extract F = some (.info name) ∧ name.length = F.length - 8 ∧
      ∀ i, i < F.length - 8 → name[i]? = F[4 + i]?) ∧
    exec .decInfo s = .next { s with observed := s.observed ++ [.result (extract F)] } ∧
    (∀ idx, rd s 3 idx = some (.word 3)) ∧ rd s 5 0 = some (.word 5) ∧ rd s 5 12 = some (.word 4) ∧
    (F.length - 8 ≤ 65535 → rd s 5 13 = some (.word (BitVec.ofNat 16 (F.length - 8)))) ∧
    (∀ i : BitVec 16, i.toNat < F.length → rd s 4 i = some (.word ((byteAt F i.toNat).setWidth 16)))

/-- R139: DEC.UNSUPPORTED. Every other command byte gives the failure that carries it, whatever the length. That exec of
the arm puts the result on the consumer's trace, and changes nothing else, is the model's choice (log 4). -/
def Obligations.OtherCommandIsUnsupported : Prop :=
  ∀ (F : List Byte) (c : Byte) (s : State), s.slot = some F → F[1]? = some c → c ≠ 3 → c ≠ 4 → c ≠ 5 →
    extract F = some (.unsupported c) ∧
    exec (.decUnsupported c) s = .next { s with observed := s.observed ++ [.result (some (.unsupported c))] } ∧
    (∀ idx, rd s 3 idx = some (.word 5)) ∧ rd s 5 0 = some (.word (c.setWidth 16))

/-- R195, R141: on every frame the slot can hold there is exactly one result, chosen in the order UNSUPPORTED,
BADCOUNT, TRUNCATED, record. -/
def Obligations.EveryFrameHasOneResultInPriorityOrder : Prop :=
  ∀ (F : List Byte) (c : Byte), closes F = true → F[1]? = some c →
    ∃ r, extract F = some r ∧
      (isSupportedCommand c = false → r = .unsupported c) ∧
      (isSupportedCommand c = true → c = 4 → (fieldAt F 2 < 0 ∨ fieldAt F 2 % 2 = 1) →
        r = .badCount c (fieldAt F 2)) ∧
      (isSupportedCommand c = true → c = 4 → ¬(fieldAt F 2 < 0 ∨ fieldAt F 2 % 2 = 1) →
        (F.length : Int) < 4 + fieldAt F 2 → r = .truncated c) ∧
      (c = 3 → F.length < 31 → r = .truncated c) ∧
      (c = 3 → 31 ≤ F.length → ∃ b, r = .battery b) ∧
      (c = 4 → ¬(fieldAt F 2 < 0 ∨ fieldAt F 2 % 2 = 1) → 4 + fieldAt F 2 ≤ F.length →
        ∃ n cells, r = .cell n cells) ∧
      (c = 5 → ∃ name, r = .info name)

/-- R132, R148: the fields of every result are in the range of its type, and a CELL result has `numcells` cells. -/
def Obligations.ResultFieldsAreInRange : Prop :=
  (∀ (F : List Byte) (b : BatteryState), extract F = some (.battery b) →
    ∀ v ∈ [b.voltageRaw, b.currentRaw, b.chargeRaw, b.fullRaw, b.temp1Raw, b.temp2Raw],
      -32768 ≤ v ∧ v ≤ 32767) ∧
  (∀ (F : List Byte) (n : Nat) (cells : List Int), extract F = some (.cell n cells) →
    cells.length = n ∧ n ≤ 16383 ∧ ∀ v ∈ cells, -32768 ≤ v ∧ v ≤ 32767) ∧
  (∀ (F : List Byte) (c : Byte) (raw : Int), extract F = some (.badCount c raw) → -32768 ≤ raw ∧ raw ≤ 32767)

/-- R142: bytes an arm does not read, the trailer of a frame among them, do not affect the result. -/
def Obligations.UnreadBytesDoNotAffectTheResult : Prop :=
  (∀ F G : List Byte, F[1]? = some 0x03 → G[1]? = some 0x03 → 31 ≤ F.length → 31 ≤ G.length →
    (∀ o ∈ [4, 5, 6, 7, 8, 9, 10, 11, 24, 27, 28, 29, 30], F[o]? = G[o]?) → extract F = extract G) ∧
  (∀ F G : List Byte, ∀ k : Nat, F[1]? = some 0x04 → fieldAt F 2 = 2 * k → 4 + 2 * k ≤ F.length →
    F.take (4 + 2 * k) = G.take (4 + 2 * k) → extract F = extract G) ∧
  (∀ F G : List Byte, F[1]? = some 0x05 → F.length = G.length → 5 < F.length →
    F.take (F.length - 4) = G.take (G.length - 4) → extract F = extract G) ∧
  (∀ (F G : List Byte) (c : Byte), F[1]? = some c → G[1]? = some c → isSupportedCommand c = false →
    extract F = extract G)

/-- R134: the two battery flags are bits 0 and 1 of the byte at offset 24, independent of each other and of the other
bits. -/
def Obligations.BatteryFlagsAreTheLowStatusBits : Prop :=
  (∀ (F : List Byte) (b : BatteryState), extract F = some (.battery b) →
    b.status = byteAt F 24 ∧ (b.chargeOn = true ↔ (byteAt F 24).toNat % 2 = 1) ∧
    (b.dischargeOn = true ↔ (byteAt F 24).toNat / 2 % 2 = 1) ∧
    ∀ s : State, s.slot = some F → rd s 5 5 = some (.word ((byteAt F 24).setWidth 16))) ∧
  (∀ c d : Bool, ∃ F b, closes F = true ∧ extract F = some (.battery b) ∧ b.chargeOn = c ∧ b.dischargeOn = d)

/-- R130: a look at RESULT runs the selected arm, shows `Extract(OUT_FRAME)` or NONE, and writes nothing else. The
look itself is the model's form of observing the output RESULT (log 4). -/
def Obligations.LookingAtResultWritesNothing : Prop :=
  ∀ (s : State) (ts : List Turn), s.schedule = .consumer .look :: ts →
    step s = .next { s with schedule := ts, observed := s.observed ++ [.result s.result] } ∧
    s.result = s.slot.bind extract

/-- An arm of the extractor that the frame does not select, or that finds the slot empty, changes nothing: the
model's choice (log 4). -/
def Obligations.UnselectedArmChangesNothing : Prop :=
  ∀ s : State,
    ((s.slot.bind fun F => F[1]?) ≠ some 0x03 → exec .decBatt s = .next s) ∧
    ((s.slot.bind fun F => F[1]?) ≠ some 0x04 → exec .decCell s = .next s) ∧
    ((s.slot.bind fun F => F[1]?) ≠ some 0x05 → exec .decInfo s = .next s) ∧
    (∀ c, (s.slot.bind fun F => F[1]?) ≠ some c → exec (.decUnsupported c) s = .next s)

/-! ### The consumer port -/

/-- R146, R147: POP empties the slot, keeps ACC, OVF, ILL and TX, and on an empty slot changes nothing. -/
def Obligations.PopEmptiesTheSlotAlone : Prop :=
  (∀ s : State, exec .pop s = .next { s with slot := none } ∧ holds .pop s = false) ∧
  (∀ s : State, s.slot = none → exec .pop s = .next s) ∧
  (∀ (s : State) (ts : List Turn), s.schedule = .consumer .pop :: ts →
    step s = .next { s with slot := none, schedule := ts })

/-- R32: the bits of STATUS. -/
def Obligations.StatusRegisterShowsTheFlags : Prop :=
  (∀ (s : State) (idx : BitVec 16), ∃ v : ReadWord, rd s 0 idx = some (.word v) ∧
    v.getLsbD 0 = s.slot.isSome ∧ v.getLsbD 1 = s.ovf ∧ v.getLsbD 2 = s.ill ∧
    ∀ i, 3 ≤ i → v.getLsbD i = false) ∧
  ∀ (c : Config) (idx : BitVec 16), rd (State.initial c) 0 idx = some (.word 0)

/-- R33: ACC_LEN in 16 bits while it fits, the unbounded natural number beyond, 0 at reset. -/
def Obligations.AccLenReadsTheLength : Prop :=
  (∀ (s : State) (idx : BitVec 16), s.acc.length ≤ 65535 →
    ∃ v : ReadWord, rd s 1 idx = some (.word v) ∧ v.toNat = s.acc.length) ∧
  (∀ (s : State) (idx : BitVec 16), 65535 < s.acc.length → rd s 1 idx = some (.natural s.acc.length)) ∧
  (∀ (c : Config) (idx : BitVec 16), rd (State.initial c) 1 idx = some (.word 0))

/-- OUT_LEN (10_state R34) in every state that meets the invariant and whose frame fits 16 bits, which a bounded build
always gives; beyond that the value is free (log 6). -/
def Obligations.OutLenReadsTheFrameLength : Prop :=
  ∀ (s : State) (idx : BitVec 16),
    (s.slot = none → rd s 2 idx = some (.word 0)) ∧
    (∀ F, s.slot = some F → F.length ≤ 65535 →
      ∃ v : ReadWord, rd s 2 idx = some (.word v) ∧ v.toNat = F.length) ∧
    (∀ F c, s.inv = true → s.cfg.accCap = some c → s.slot = some F → F.length ≤ 65535)

/-- R144: RESULT_KIND reads 0 exactly with the slot empty and 1 to 6 otherwise, and the result changes only when the
slot does, by EOC, POP, CLR or reset. The slot holds a RawFrame, an invariant every step keeps. -/
def Obligations.ResultKindFollowsTheSlot : Prop :=
  (∀ (s : State) (idx : BitVec 16), s.slotOk = true →
    ∃ v : ReadWord, rd s 3 idx = some (.word v) ∧ (v = 0 ↔ s.slot = none) ∧
      (s.slot ≠ none → 1 ≤ v.toNat ∧ v.toNat ≤ 6)) ∧
  (∀ s t : State, step s = .next t → t.result ≠ s.result → t.slot ≠ s.slot) ∧
  (∀ s t : State, step s = .next t → t.slot ≠ s.slot →
    s.schedule.head? = some .reset ∨ s.schedule.head? = some (.consumer .pop) ∨
    (s.schedule.head? = some .producer ∧
      ∃ w ws, s.input = w :: ws ∧ (decodeWord w = .eoc ∨ decodeWord w = .clr)))

/-- R39: a read has a value exactly where its "valid when" condition holds; otherwise the reader sees no value and a
fault of the reader is recorded; reserved selectors and FIELD indices read 0; OUT_BYTE gives the bytes of every frame
in the slot (R37, R57). For a frame of more than 65535 bytes, that OUT_BYTE is valid below `|OUT_FRAME|` is the
model's choice (log 6), and so is the form of the record (log 5). -/
def Obligations.ReadsHaveAValueExactlyWhereValid : Prop :=
  (∀ (s : State) (sel : BitVec 4) (idx : BitVec 16), s.slotOk = true →
    ((rd s sel idx).isSome = true ↔ readIsValid s sel idx)) ∧
  (∀ (s : State) (F : List Byte) (i : BitVec 16) (b : Byte), s.slot = some F → F[i.toNat]? = some b →
    rd s 4 i = some (.word (b.setWidth 16))) ∧
  (∀ (s : State) (sel : BitVec 4) (idx : BitVec 16), 7 ≤ sel.toNat → rd s sel idx = some (.word 0)) ∧
  (∀ (s : State) (idx : BitVec 16), 14 ≤ idx.toNat → rd s 5 idx = some (.word 0)) ∧
  (∀ (s : State) (sel : BitVec 4) (idx : BitVec 16) (ts : List Turn), s.schedule = .consumer (.read sel idx) :: ts →
    rd s sel idx = none →
    step s = .next { s with schedule := ts, observed := s.observed ++ [.read sel idx none],
                            faults := s.faults ++ [.readWithoutValue] })

/-- R36, R59: a read that has a value changes nothing but what the consumer saw, and any later read gives what it
would have given before. -/
def Obligations.ReadsHaveNoSideEffect : Prop :=
  (∀ (s : State) (sel : BitVec 4) (idx : BitVec 16) (v : ReadValue) (ts : List Turn),
    s.schedule = .consumer (.read sel idx) :: ts → rd s sel idx = some v →
    step s = .next { s with schedule := ts, observed := s.observed ++ [.read sel idx (some v)] }) ∧
  (∀ (s t : State) (sel : BitVec 4) (idx : BitVec 16) (ts : List Turn),
    s.schedule = .consumer (.read sel idx) :: ts → step s = .next t →
    t.acc = s.acc ∧ t.slot = s.slot ∧ t.ovf = s.ovf ∧ t.ill = s.ill ∧ t.tx = s.tx ∧ t.input = s.input ∧
    ∀ sel' idx', rd t sel' idx' = rd s sel' idx')

/-- R228: once POP is accepted, OUT_BYTE, FIELD and CELL hold no value. -/
def Obligations.NothingToReadAfterPop : Prop :=
  ∀ s t : State, exec .pop s = .next t →
    (∀ idx, rd t 4 idx = none) ∧ (∀ idx, rd t 6 idx = none) ∧
    (∀ idx : BitVec 16, idx.toNat < 14 → rd t 5 idx = none) ∧ (∀ idx, rd t 3 idx = some (.word 0))

/-! ### The ports and the agents -/

/-- When the bits at the port stand for an operation, the step is exec of it, at the state without the accepted word
and the turn; a held word stays. The look turn (log 4), the schedule of turns (log 3) and the placing of a word by
`withFetchWord`, whose 16 bits select an operation word (logs 8 and 10), are the model's choices. -/
def Obligations.StepRunsTheDecodedOperation : Prop :=
  (∀ (s : State) (w : OpWord) (ws : List OpWord) (ts : List Turn), s.schedule = .producer :: ts →
    s.input = w :: ws →
    (holds (decodeWord w) s = false →
      step s = exec (decodeWord w) { s with input := ws, schedule := ts }) ∧
    (holds (decodeWord w) s = true → step s = .next { s with schedule := ts })) ∧
  (∀ (s : State) (F : List Byte) (c : Byte) (ts : List Turn), s.schedule = .consumer .look :: ts →
    s.slot = some F → F[1]? = some c → step s = exec (decodeCommand c) { s with schedule := ts }) ∧
  (∀ (s : State) (ts : List Turn), s.schedule = .consumer .pop :: ts →
    step s = exec .pop { s with schedule := ts }) ∧
  (∀ (s : State) (w : OpWord), holds (decodeWord w) s = false →
    step (s.withFetchWord 16 w.toNat) = exec (decodeWord w) s)

/-- R61: the input port never reorders and never skips. A step leaves the words as they are or takes the first one,
in a producer turn that does not hold it; a word that is not held is taken. -/
def Obligations.InputPortKeepsItsOrder : Prop :=
  (∀ s t : State, step s = .next t → t.input = s.input ∨
    ∃ w, s.input = w :: t.input ∧ s.schedule.head? = some .producer ∧ holds (decodeWord w) s = false) ∧
  (∀ (s t : State) (w : OpWord) (ws : List OpWord) (ts : List Turn), s.schedule = .producer :: ts →
    s.input = w :: ws → step s = .next t →
    (holds (decodeWord w) s = false → t.input = ws) ∧ (holds (decodeWord w) s = true → t.input = w :: ws)) ∧
  (∀ (w : OpWord) (s : State), holds (decodeWord w) s = true → decodeWord w = .eoc)

/-- R62: with a frame waiting, it does not matter whether the producer's EOC turn comes before the consumer's POP as
well or only after it. -/
def Obligations.EocAndPopInterleaveHarmlessly : Prop :=
  ∀ (s : State) (ws : List OpWord) (ts : List Turn) (F : List Byte), s.input = eocWord :: ws → s.ovf = false →
    s.slot = some F →
    ∃ t : State,
      Host.Core.run Sys2Proof.core 3 { s with schedule := .producer :: .consumer .pop :: .producer :: ts } = .next t ∧
      Host.Core.run Sys2Proof.core 2 { s with schedule := .consumer .pop :: .producer :: ts } = .next t ∧
      t.input = ws ∧ (closes s.acc = true → t.slot = some s.acc ∧ t.acc = []) ∧
      (closes s.acc = false → t.slot = none ∧ t.acc = s.acc)

/-- R229: while the slot is full, an EOC waits, and neither a POP nor a reset comes, every word behind it waits, in
every run. -/
def Obligations.FullSlotStallsTheProducer : Prop :=
  ∀ (k : Nat) (s t : State) (ws : List OpWord), s.input = eocWord :: ws → holds .eoc s = true →
    noReset s.schedule = true → .consumer .pop ∉ s.schedule →
    Host.Core.run Sys2Proof.core k s = .next t →
    t.input = s.input ∧ t.slot = s.slot ∧ t.acc = s.acc ∧ t.tx = s.tx

/-- R232: under weak fairness of the producer and of a consumer that POPs, every offered word is accepted. -/
def Obligations.FairRunsAcceptEveryWord : Prop :=
  ∀ (σ : Nat → Turn) (r : Nat → State), IsRun σ r → WeaklyFair σ →
    ∀ (n : Nat) (w : OpWord) (ws : List OpWord), (r n).input = w :: ws → ∃ m, n < m ∧ (r m).input = ws

/-- Every step answers a next state: no fault outcome, no refusal (R141, R198, R116). -/
def Obligations.StepAlwaysAnswersANextState : Prop :=
  (∀ s : State, ∃ t, step s = .next t) ∧
  ∀ (k : Nat) (s : State), ∃ t, Host.Core.run Sys2Proof.core k s = .next t

/-! ### Flags, frames, invariants -/

/-- R27: OVF is set only by a PUSH whose guard fires, ILL only by an illegal word, and a set flag is cleared only by CLR
or reset. -/
def Obligations.FlagsAreSticky : Prop :=
  ∀ s t : State, step s = .next t →
    (s.ovf = false → t.ovf = true → s.accFull = true ∧ s.schedule.head? = some .producer ∧
      ∃ w ws b, s.input = w :: ws ∧ decodeWord w = .push b) ∧
    (s.ill = false → t.ill = true → s.schedule.head? = some .producer ∧
      ∃ w ws, s.input = w :: ws ∧ isIllegalWord w = true) ∧
    ((s.ovf = true ∧ t.ovf = false) ∨ (s.ill = true ∧ t.ill = false) →
      s.schedule.head? = some .reset ∨
      (s.schedule.head? = some .producer ∧ ∃ ws, s.input = clrWord :: ws))

/-- The frame of every operation: what exec leaves unchanged, for every operation and every state. -/
def Obligations.OperationsKeepTheirFrame : Prop :=
  ∀ (i : Instr) (s t : State), exec i s = .next t →
    t.cfg = s.cfg ∧ t.input = s.input ∧ t.schedule = s.schedule ∧
    (t.acc ≠ s.acc → (∃ b, i = .push b) ∨ i = .eoc ∨ i = .clr) ∧
    (t.slot ≠ s.slot → i = .eoc ∨ i = .clr ∨ i = .pop) ∧
    (t.ovf ≠ s.ovf → (∃ b, i = .push b) ∨ i = .clr) ∧
    (t.ill ≠ s.ill → (∃ w, i = .illegal w) ∨ i = .clr) ∧
    (t.tx ≠ s.tx → ∃ n : CommandName, i = n.instr) ∧
    (t.observed ≠ s.observed → i = .decBatt ∨ i = .decCell ∨ i = .decInfo ∨ ∃ c, i = .decUnsupported c) ∧
    (t.faults ≠ s.faults → (∃ b, i = .push b) ∨ ∃ w, i = .illegal w)

/-- The invariant of the state (R8, R23, R26, and R190's "ACC_LEN = c" under OVF) is kept by every step. -/
def Obligations.EveryStepKeepsTheInvariant : Prop :=
  ∀ s t : State, s.inv = true → step s = .next t → t.inv = true ∧ t.cfg = s.cfg

/-- The invariant holds after reset, in every legal build. That TX is empty, and so whole, and that no fault is
recorded in State.reset is the model's (log 9), as its unbounded build is (log 1). -/
def Obligations.ResetMeetsTheInvariant : Prop :=
  State.reset.inv = true ∧ State.reset.txWhole ∧ State.reset.flagsRecorded ∧
  ∀ c : Config, c.legal = true → (State.initial c).inv = true

/-- The faults R200 asks a model to record: a set flag has its fault in the record of the run, and the record is only
lengthened. The record is the model's form (log 5). -/
def Obligations.FlagsAreRecordedAsFaults : Prop :=
  ∀ s t : State, step s = .next t →
    (s.flagsRecorded → t.flagsRecorded) ∧ (∃ new, t.faults = s.faults ++ new) ∧
    (t.isFinal = true → s.isFinal = true)

/-- R223: a producer that keeps its duties, on the unbounded build, never sets OVF or ILL, in any interleaving. That the
duties allow a NOP, and an ENC between the PUSHes of one event, is the model's choice (log 14). -/
def Obligations.DutifulProducersRaiseNoFlag : Prop :=
  ∀ (k : Nat) (s t : State), dutifulWords s.input → s.cfg.accCap = none → s.flagsClear = true →
    Host.Core.run Sys2Proof.core k s = .next t →
    t.flagsClear = true ∧ t.faults.count .illegalWord = s.faults.count .illegalWord ∧
    t.faults.count .accumulatorOverflow = s.faults.count .accumulatorOverflow

/-! ### Encodings -/

/-- Decoding what is encoded gives every well-formed operation back, with every operand. -/
def Obligations.DecodeOfEncodeIsTheInstruction : Prop :=
  ∀ i : Instr, i.wellFormed = true → decode (encode i) = i

/-- Every encoding has one meaning: encoding what is decoded gives the bits back, and what is decoded is well
formed. -/
def Obligations.EncodeOfDecodeIsTheEncoding : Prop :=
  ∀ e : Encoding, encode (decode e) = e ∧ (decode e).wellFormed = true

/-- R78: decoding is the first matching row of the opcode table, for every word and every command byte. -/
def Obligations.DecodingIsTheFirstMatchingRow : Prop :=
  (∀ w : OpWord, firstMatch (opWordRows w) w.toNat = some (decodeWord w)) ∧
  (∀ c : Byte, firstMatch (commandRows c) c.toNat = some (decodeCommand c))

/-- Words written out from 30_encoding R71, R74, R76 and R80 decode to the operations they stand for. That
`decodeTableWord` selects the format by the bit count, and rejects a number too wide for it, is the model's choice
(log 8). -/
def Obligations.WrittenOutWordsDecode : Prop :=
  decodeWord 0b000000000000 = .nop ∧ decodeWord 0b000111011101 = .push 0xDD ∧
  decodeWord 0b001000000000 = .eoc ∧ decodeWord 0b001100000110 = .encRequestInfo ∧
  decodeWord 0b111100000000 = .clr ∧ decodeWord 0b001100000111 = .illegal 0x307 ∧
  decodeCommand 0b00000100 = .decCell ∧ decodeCommand 0b10100101 = .decUnsupported 0xA5 ∧
  decodeTableWord 16 0x1DD = some (.push 0xDD) ∧ decodeTableWord 8 0x05 = some .decInfo ∧
  decodeTableWord 16 0x1000 = none

/-- R77: the lines of the assembler, FEED among them, give the words of their operations; `ENC 7` gives the illegal
word 0x307. -/
def Obligations.AssembledLinesDecodeToTheirOperations : Prop :=
  (∀ chunk : List Byte, (AsmLine.feed chunk).words.map decodeWord = chunk.map .push ++ [.eoc]) ∧
  (∀ b : Byte, (AsmLine.push b).words.map decodeWord = [.push b]) ∧
  (∀ n : CommandName, (AsmLine.enc n).words.map decodeWord = [n.instr]) ∧
  AsmLine.nop.words.map decodeWord = [.nop] ∧ AsmLine.eoc.words.map decodeWord = [.eoc] ∧
  AsmLine.clr.words.map decodeWord = [.clr] ∧ AsmLine.encSeven.words.map decodeWord = [.illegal 0x307] ∧
  (∀ chunk : List Byte, pushedBytes (feedWords chunk) = chunk)

/-! ### The whole block -/

/-- R19: driven chunk by chunk, with a look at RESULT and a POP after each, the unbounded block gives for every list
of chunks exactly the outcomes of the source's `feed` and `decode`, and its accumulator. The look turn with its trace
(log 4), and a run placed as offered words and turns (log 10), are the model's choices. -/
def Obligations.BlockEqualsTheSoftware : Prop :=
  ∀ (chunks : List (List Byte)) (s : State), s.cfg.accCap = none → s.ovf = false → s.slot = none →
    s.input = chunks.flatMap feedWords → s.schedule = chunks.flatMap chunkTurns →
    Host.Core.run Sys2Proof.core (chunks.flatMap chunkTurns).length s = .next
      { s with acc := (software s.acc chunks).1, input := [], schedule := [],
               observed := s.observed ++ (software s.acc chunks).2.map .result }

/-- R150: the reference scaling, exact in hundredths. -/
def Obligations.ScalingIsExact : Prop :=
  ∀ raw : Int,
    volts raw = (centivolts raw : ℚ) / 100 ∧ amps raw = (centiamps raw : ℚ) / 100 ∧
    celsius raw = (raw : ℚ) / 10 - 5463 / 20 ∧ celsius raw = (centidegrees raw : ℚ) / 100 ∧
    charge raw = raw ∧ full raw = raw ∧ cellMillivolts raw = raw ∧ 2 * numcellsOfRaw raw = raw ∧
    centivolts raw = raw ∧ centiamps raw = raw ∧ centidegrees raw = 10 * raw - 27315
end

