-- ==== Sys2Proof/Laws/State.lean ====
section
/-!
SUPPORT. What each update of the state gives in each field, so that no proof unfolds an update.
-/

namespace Sys2Proof.Machine

variable (s : State)

@[simp] theorem State.raiseOvf_cfg : s.raiseOvf.cfg = s.cfg := rfl
@[simp] theorem State.raiseOvf_acc : s.raiseOvf.acc = s.acc := rfl
@[simp] theorem State.raiseOvf_slot : s.raiseOvf.slot = s.slot := rfl
@[simp] theorem State.raiseOvf_ovf : s.raiseOvf.ovf = true := rfl
@[simp] theorem State.raiseOvf_ill : s.raiseOvf.ill = s.ill := rfl
@[simp] theorem State.raiseOvf_tx : s.raiseOvf.tx = s.tx := rfl
@[simp] theorem State.raiseOvf_observed : s.raiseOvf.observed = s.observed := rfl
@[simp] theorem State.raiseOvf_faults : s.raiseOvf.faults = s.faults ++ [.accumulatorOverflow] := rfl
@[simp] theorem State.raiseOvf_input : s.raiseOvf.input = s.input := rfl
@[simp] theorem State.raiseOvf_schedule : s.raiseOvf.schedule = s.schedule := rfl

@[simp] theorem State.raiseIll_cfg : s.raiseIll.cfg = s.cfg := rfl
@[simp] theorem State.raiseIll_acc : s.raiseIll.acc = s.acc := rfl
@[simp] theorem State.raiseIll_slot : s.raiseIll.slot = s.slot := rfl
@[simp] theorem State.raiseIll_ovf : s.raiseIll.ovf = s.ovf := rfl
@[simp] theorem State.raiseIll_ill : s.raiseIll.ill = true := rfl
@[simp] theorem State.raiseIll_tx : s.raiseIll.tx = s.tx := rfl
@[simp] theorem State.raiseIll_observed : s.raiseIll.observed = s.observed := rfl
@[simp] theorem State.raiseIll_faults : s.raiseIll.faults = s.faults ++ [.illegalWord] := rfl
@[simp] theorem State.raiseIll_input : s.raiseIll.input = s.input := rfl
@[simp] theorem State.raiseIll_schedule : s.raiseIll.schedule = s.schedule := rfl

@[simp] theorem State.appendAcc_cfg (b : Byte) : (s.appendAcc b).cfg = s.cfg := rfl
@[simp] theorem State.appendAcc_acc (b : Byte) : (s.appendAcc b).acc = s.acc ++ [b] := rfl
@[simp] theorem State.appendAcc_slot (b : Byte) : (s.appendAcc b).slot = s.slot := rfl
@[simp] theorem State.appendAcc_ovf (b : Byte) : (s.appendAcc b).ovf = s.ovf := rfl
@[simp] theorem State.appendAcc_ill (b : Byte) : (s.appendAcc b).ill = s.ill := rfl
@[simp] theorem State.appendAcc_tx (b : Byte) : (s.appendAcc b).tx = s.tx := rfl
@[simp] theorem State.appendAcc_observed (b : Byte) : (s.appendAcc b).observed = s.observed := rfl
@[simp] theorem State.appendAcc_faults (b : Byte) : (s.appendAcc b).faults = s.faults := rfl
@[simp] theorem State.appendAcc_input (b : Byte) : (s.appendAcc b).input = s.input := rfl
@[simp] theorem State.appendAcc_schedule (b : Byte) : (s.appendAcc b).schedule = s.schedule := rfl

@[simp] theorem State.emitAcc_cfg : s.emitAcc.cfg = s.cfg := rfl
@[simp] theorem State.emitAcc_acc : s.emitAcc.acc = [] := rfl
@[simp] theorem State.emitAcc_slot : s.emitAcc.slot = some s.acc := rfl
@[simp] theorem State.emitAcc_ovf : s.emitAcc.ovf = s.ovf := rfl
@[simp] theorem State.emitAcc_ill : s.emitAcc.ill = s.ill := rfl
@[simp] theorem State.emitAcc_tx : s.emitAcc.tx = s.tx := rfl
@[simp] theorem State.emitAcc_observed : s.emitAcc.observed = s.observed := rfl
@[simp] theorem State.emitAcc_faults : s.emitAcc.faults = s.faults := rfl
@[simp] theorem State.emitAcc_input : s.emitAcc.input = s.input := rfl
@[simp] theorem State.emitAcc_schedule : s.emitAcc.schedule = s.schedule := rfl

@[simp] theorem State.emptySlot_cfg : s.emptySlot.cfg = s.cfg := rfl
@[simp] theorem State.emptySlot_acc : s.emptySlot.acc = s.acc := rfl
@[simp] theorem State.emptySlot_slot : s.emptySlot.slot = none := rfl
@[simp] theorem State.emptySlot_ovf : s.emptySlot.ovf = s.ovf := rfl
@[simp] theorem State.emptySlot_ill : s.emptySlot.ill = s.ill := rfl
@[simp] theorem State.emptySlot_tx : s.emptySlot.tx = s.tx := rfl
@[simp] theorem State.emptySlot_observed : s.emptySlot.observed = s.observed := rfl
@[simp] theorem State.emptySlot_faults : s.emptySlot.faults = s.faults := rfl
@[simp] theorem State.emptySlot_input : s.emptySlot.input = s.input := rfl
@[simp] theorem State.emptySlot_schedule : s.emptySlot.schedule = s.schedule := rfl

@[simp] theorem State.clear_cfg : s.clear.cfg = s.cfg := rfl
@[simp] theorem State.clear_acc : s.clear.acc = [] := rfl
@[simp] theorem State.clear_slot : s.clear.slot = none := rfl
@[simp] theorem State.clear_ovf : s.clear.ovf = false := rfl
@[simp] theorem State.clear_ill : s.clear.ill = false := rfl
@[simp] theorem State.clear_tx : s.clear.tx = s.tx := rfl
@[simp] theorem State.clear_observed : s.clear.observed = s.observed := rfl
@[simp] theorem State.clear_faults : s.clear.faults = s.faults := rfl
@[simp] theorem State.clear_input : s.clear.input = s.input := rfl
@[simp] theorem State.clear_schedule : s.clear.schedule = s.schedule := rfl

@[simp] theorem State.txSend_cfg (bytes : List Byte) : (s.txSend bytes).cfg = s.cfg := rfl
@[simp] theorem State.txSend_acc (bytes : List Byte) : (s.txSend bytes).acc = s.acc := rfl
@[simp] theorem State.txSend_slot (bytes : List Byte) : (s.txSend bytes).slot = s.slot := rfl
@[simp] theorem State.txSend_ovf (bytes : List Byte) : (s.txSend bytes).ovf = s.ovf := rfl
@[simp] theorem State.txSend_ill (bytes : List Byte) : (s.txSend bytes).ill = s.ill := rfl
@[simp] theorem State.txSend_tx (bytes : List Byte) : (s.txSend bytes).tx = s.tx ++ bytes := rfl
@[simp] theorem State.txSend_observed (bytes : List Byte) : (s.txSend bytes).observed = s.observed := rfl
@[simp] theorem State.txSend_faults (bytes : List Byte) : (s.txSend bytes).faults = s.faults := rfl
@[simp] theorem State.txSend_input (bytes : List Byte) : (s.txSend bytes).input = s.input := rfl
@[simp] theorem State.txSend_schedule (bytes : List Byte) : (s.txSend bytes).schedule = s.schedule := rfl

@[simp] theorem State.observe_cfg (o : Observation) : (s.observe o).cfg = s.cfg := rfl
@[simp] theorem State.observe_acc (o : Observation) : (s.observe o).acc = s.acc := rfl
@[simp] theorem State.observe_slot (o : Observation) : (s.observe o).slot = s.slot := rfl
@[simp] theorem State.observe_ovf (o : Observation) : (s.observe o).ovf = s.ovf := rfl
@[simp] theorem State.observe_ill (o : Observation) : (s.observe o).ill = s.ill := rfl
@[simp] theorem State.observe_tx (o : Observation) : (s.observe o).tx = s.tx := rfl
@[simp] theorem State.observe_observed (o : Observation) : (s.observe o).observed = s.observed ++ [o] := rfl
@[simp] theorem State.observe_faults (o : Observation) : (s.observe o).faults = s.faults := rfl
@[simp] theorem State.observe_input (o : Observation) : (s.observe o).input = s.input := rfl
@[simp] theorem State.observe_schedule (o : Observation) : (s.observe o).schedule = s.schedule := rfl

@[simp] theorem State.recordReadFault_cfg : s.recordReadFault.cfg = s.cfg := rfl
@[simp] theorem State.recordReadFault_acc : s.recordReadFault.acc = s.acc := rfl
@[simp] theorem State.recordReadFault_slot : s.recordReadFault.slot = s.slot := rfl
@[simp] theorem State.recordReadFault_ovf : s.recordReadFault.ovf = s.ovf := rfl
@[simp] theorem State.recordReadFault_ill : s.recordReadFault.ill = s.ill := rfl
@[simp] theorem State.recordReadFault_tx : s.recordReadFault.tx = s.tx := rfl
@[simp] theorem State.recordReadFault_observed : s.recordReadFault.observed = s.observed := rfl
@[simp] theorem State.recordReadFault_faults : s.recordReadFault.faults = s.faults ++ [.readWithoutValue] := rfl
@[simp] theorem State.recordReadFault_input : s.recordReadFault.input = s.input := rfl
@[simp] theorem State.recordReadFault_schedule : s.recordReadFault.schedule = s.schedule := rfl

@[simp] theorem State.withInput_cfg (ws : List OpWord) : (s.withInput ws).cfg = s.cfg := rfl
@[simp] theorem State.withInput_acc (ws : List OpWord) : (s.withInput ws).acc = s.acc := rfl
@[simp] theorem State.withInput_slot (ws : List OpWord) : (s.withInput ws).slot = s.slot := rfl
@[simp] theorem State.withInput_ovf (ws : List OpWord) : (s.withInput ws).ovf = s.ovf := rfl
@[simp] theorem State.withInput_ill (ws : List OpWord) : (s.withInput ws).ill = s.ill := rfl
@[simp] theorem State.withInput_tx (ws : List OpWord) : (s.withInput ws).tx = s.tx := rfl
@[simp] theorem State.withInput_observed (ws : List OpWord) : (s.withInput ws).observed = s.observed := rfl
@[simp] theorem State.withInput_faults (ws : List OpWord) : (s.withInput ws).faults = s.faults := rfl
@[simp] theorem State.withInput_input (ws : List OpWord) : (s.withInput ws).input = ws := rfl
@[simp] theorem State.withInput_schedule (ws : List OpWord) : (s.withInput ws).schedule = s.schedule := rfl

@[simp] theorem State.withSchedule_cfg (ts : List Turn) : (s.withSchedule ts).cfg = s.cfg := rfl
@[simp] theorem State.withSchedule_acc (ts : List Turn) : (s.withSchedule ts).acc = s.acc := rfl
@[simp] theorem State.withSchedule_slot (ts : List Turn) : (s.withSchedule ts).slot = s.slot := rfl
@[simp] theorem State.withSchedule_ovf (ts : List Turn) : (s.withSchedule ts).ovf = s.ovf := rfl
@[simp] theorem State.withSchedule_ill (ts : List Turn) : (s.withSchedule ts).ill = s.ill := rfl
@[simp] theorem State.withSchedule_tx (ts : List Turn) : (s.withSchedule ts).tx = s.tx := rfl
@[simp] theorem State.withSchedule_observed (ts : List Turn) : (s.withSchedule ts).observed = s.observed := rfl
@[simp] theorem State.withSchedule_faults (ts : List Turn) : (s.withSchedule ts).faults = s.faults := rfl
@[simp] theorem State.withSchedule_input (ts : List Turn) : (s.withSchedule ts).input = s.input := rfl
@[simp] theorem State.withSchedule_schedule (ts : List Turn) : (s.withSchedule ts).schedule = ts := rfl

end Sys2Proof.Machine
end

