-- ==== Sys2Proof/Laws/Ops.lean ====
section
/-!
SUPPORT. One lemma per shared operation and per meaning that says once everything it can do, and the inversion of
`exec`.
-/

namespace Sys2Proof.Machine

variable {s t : State} {i : Instr}

/-- The boundary test as a proposition (40_frame_decoder R100). -/
theorem closes_iff (A : List Byte) :
    closes A = true ↔ 4 < A.length ∧ A.head? = some startMarker ∧ A.getLast? = some endMarker := by
  simp [closes, and_assoc]

@[simp] theorem closes_nil : closes [] = false := rfl

/-- `Feed` emits one frame and empties the accumulator, or keeps the bytes (40_frame_decoder R109). -/
theorem feed_cases (acc chunk : List Byte) :
    (closes (acc ++ chunk) = true ∧ feed acc chunk = ([], [acc ++ chunk])) ∨
    (closes (acc ++ chunk) = false ∧ feed acc chunk = (acc ++ chunk, [])) := by
  cases h : closes (acc ++ chunk) <;> simp [feed, h]

/-- Only an EOC with OVF = 0 on a full slot is held (30_encoding R72). -/
theorem holds_iff (i : Instr) (s : State) :
    holds i s = true ↔ i = .eoc ∧ s.ovf = false ∧ s.slot.isSome = true := by
  simp [holds, and_assoc]

/-- The guard's condition (40_frame_decoder R106). -/
theorem accFull_iff (s : State) : s.accFull = true ↔ s.cfg.accCap = some s.acc.length := by
  simp [State.accFull]

/-- Everything a PUSH can do (R102). -/
theorem execPush_cases (b : Byte) (h : execPush b s = .next t) :
    (s.ovf = true ∧ t = s) ∨ (s.ovf = false ∧ s.accFull = true ∧ t = s.raiseOvf) ∨
    (s.ovf = false ∧ s.accFull = false ∧ t = s.appendAcc b) := by
  unfold execPush at h
  cases ho : s.ovf <;> cases hf : s.accFull <;> simp_all

/-- Everything an EOC can do (R103). -/
theorem execEoc_cases (h : execEoc s = .next t) :
    (s.ovf = true ∧ t = s) ∨ (s.ovf = false ∧ s.slot.isSome = true ∧ t = s) ∨
    (s.ovf = false ∧ s.slot = none ∧ closes s.acc = false ∧ t = s) ∨
    (s.ovf = false ∧ s.slot = none ∧ closes s.acc = true ∧ t = s.emitAcc) := by
  unfold execEoc State.outValid at h
  cases ho : s.ovf <;> cases hs : s.slot <;> cases hc : closes s.acc <;> simp_all

/-- Everything an arm of the extractor can do (41_payload_extractor R130, R131). -/
theorem runArm_cases {arm : List Byte → Result} (h : runArm i arm s = .next t) :
    t = s ∨ ∃ F, s.slot = some F ∧ selects i F = true ∧ t = s.observe (.result (some (arm F))) := by
  unfold runArm at h
  cases hs : s.slot with
  | none => simp_all
  | some F => cases hf : selects i F <;> simp_all

/-- A frame that selects the arm `i` has `armResult i` as its result (41_payload_extractor R131). -/
theorem extract_of_selects {F : List Byte} (h : selects i F = true) : extract F = armResult i F := by
  obtain ⟨c, hc, rfl⟩ : ∃ c, F[1]? = some c ∧ decodeCommand c = i := by simpa [selects] using h
  simp [extract, hc]

/-- Each command name's operation sends its sequence (42_command_table R170). -/
@[simp] theorem exec_commandInstr (n : CommandName) (s : State) :
    exec n.instr s = .next (s.txSend (cmdRom n)) := by
  cases n <;> rfl

/-- Everything `exec` can do. Each alternative names the operation, its guard and the next state. -/
theorem exec_cases (h : exec i s = .next t) :
    t = s ∨
    (∃ b, i = .push b ∧ s.ovf = false ∧ s.accFull = true ∧ t = s.raiseOvf) ∨
    (∃ b, i = .push b ∧ s.ovf = false ∧ s.accFull = false ∧ t = s.appendAcc b) ∨
    (i = .eoc ∧ s.ovf = false ∧ s.slot = none ∧ closes s.acc = true ∧ t = s.emitAcc) ∨
    (i = .clr ∧ t = s.clear) ∨
    (∃ w, i = .illegal w ∧ t = s.raiseIll) ∨
    (∃ n : CommandName, i = n.instr ∧ t = s.txSend (cmdRom n)) ∨
    (i = .pop ∧ t = s.emptySlot) ∨
    (∃ F r, s.slot = some F ∧ selects i F = true ∧ armResult i F = some r ∧ t = s.observe (.result (some r))) := by
  cases i with
  | nop => exact .inl (by simpa [exec, execNop] using h.symm)
  | push b =>
    obtain ⟨-, rfl⟩ | ⟨ho, hf, rfl⟩ | ⟨ho, hf, rfl⟩ := execPush_cases b h
    · exact .inl rfl
    · exact .inr (.inl ⟨b, rfl, ho, hf, rfl⟩)
    · exact .inr (.inr (.inl ⟨b, rfl, ho, hf, rfl⟩))
  | eoc =>
    obtain ⟨-, rfl⟩ | ⟨-, -, rfl⟩ | ⟨-, -, -, rfl⟩ | ⟨ho, hs, hc, rfl⟩ := execEoc_cases h
    · exact .inl rfl
    · exact .inl rfl
    · exact .inl rfl
    · simp [ho, hs, hc]
  | clr =>
    have ht : t = s.clear := by simpa [exec, execClr] using h.symm
    simp [ht]
  | illegal w =>
    have ht : t = s.raiseIll := by simpa [exec, execIllegal] using h.symm
    simp [ht]
  | pop =>
    have ht : t = s.emptySlot := by simpa [exec, execPop] using h.symm
    simp [ht]
  | encDischargeOn => exact .inr (.inr (.inr (.inr (.inr (.inr (.inl ⟨.dischargeOn, rfl, by simpa [exec, execEncDischargeOn, sendCommand] using h.symm⟩))))))
  | encDischargeOff => exact .inr (.inr (.inr (.inr (.inr (.inr (.inl ⟨.dischargeOff, rfl, by simpa [exec, execEncDischargeOff, sendCommand] using h.symm⟩))))))
  | encChargeOn => exact .inr (.inr (.inr (.inr (.inr (.inr (.inl ⟨.chargeOn, rfl, by simpa [exec, execEncChargeOn, sendCommand] using h.symm⟩))))))
  | encChargeOff => exact .inr (.inr (.inr (.inr (.inr (.inr (.inl ⟨.chargeOff, rfl, by simpa [exec, execEncChargeOff, sendCommand] using h.symm⟩))))))
  | encRequestRead => exact .inr (.inr (.inr (.inr (.inr (.inr (.inl ⟨.requestRead, rfl, by simpa [exec, execEncRequestRead, sendCommand] using h.symm⟩))))))
  | encRequestCellVoltage => exact .inr (.inr (.inr (.inr (.inr (.inr (.inl ⟨.requestCellVoltage, rfl, by simpa [exec, execEncRequestCellVoltage, sendCommand] using h.symm⟩))))))
  | encRequestInfo => exact .inr (.inr (.inr (.inr (.inr (.inr (.inl ⟨.requestInfo, rfl, by simpa [exec, execEncRequestInfo, sendCommand] using h.symm⟩))))))
  | decBatt =>
    obtain rfl | ⟨F, hs, hf, rfl⟩ := runArm_cases h
    · exact .inl rfl
    · simp [hs, hf, armResult]
  | decCell =>
    obtain rfl | ⟨F, hs, hf, rfl⟩ := runArm_cases h
    · exact .inl rfl
    · simp [hs, hf, armResult]
  | decInfo =>
    obtain rfl | ⟨F, hs, hf, rfl⟩ := runArm_cases h
    · exact .inl rfl
    · simp [hs, hf, armResult]
  | decUnsupported c =>
    obtain rfl | ⟨F, hs, hf, rfl⟩ := runArm_cases h
    · exact .inl rfl
    · simp [hs, hf, armResult]

end Sys2Proof.Machine
end

