-- ==== Sys2Proof/Laws/PerInstr.lean ====
section
/-!
SUPPORT. One fact about every operation as it is written: its bits match the row of the opcode table that names it
(30_encoding R78).
-/

namespace Sys2Proof.Laws.MatchesRow

/-- The row of the table that names `i` accepts the bits `i` is encoded as; POP has no bits (30_encoding R78). -/
def Statement (i : Instr) : Prop :=
  match encode i with
  | .word w => ∃ r, (r, i) ∈ opWordRows w ∧ r.accepts w.toNat = true
  | .command c => ∃ r, (r, i) ∈ commandRows c ∧ r.accepts c.toNat = true
  | .strobe => i = .pop

/-- The PUSH word of a byte has opcode 1 and that byte as its operand (30_encoding R71). -/
theorem opWord_push (b : Byte) :
    operandField (opWord 0x1 b) = b ∧ Row.accepts ⟨0x100, 0xF00⟩ (opWord 0x1 b).toNat = true := by
  revert b
  decide +kernel

theorem nop : Statement .nop := ⟨⟨0x000, 0xFFF⟩, by decide, by decide⟩

theorem push (b : Byte) : Statement (.push b) :=
  ⟨⟨0x100, 0xF00⟩, by simpa [opWordRows] using (opWord_push b).1.symm, (opWord_push b).2⟩

theorem eoc : Statement .eoc := ⟨⟨0x200, 0xFFF⟩, by decide, by decide⟩

theorem encDischargeOn : Statement .encDischargeOn := ⟨⟨0x300, 0xFFF⟩, by decide, by decide⟩

theorem encDischargeOff : Statement .encDischargeOff := ⟨⟨0x301, 0xFFF⟩, by decide, by decide⟩

theorem encChargeOn : Statement .encChargeOn := ⟨⟨0x302, 0xFFF⟩, by decide, by decide⟩

theorem encChargeOff : Statement .encChargeOff := ⟨⟨0x303, 0xFFF⟩, by decide, by decide⟩

theorem encRequestRead : Statement .encRequestRead := ⟨⟨0x304, 0xFFF⟩, by decide, by decide⟩

theorem encRequestCellVoltage : Statement .encRequestCellVoltage := ⟨⟨0x305, 0xFFF⟩, by decide, by decide⟩

theorem encRequestInfo : Statement .encRequestInfo := ⟨⟨0x306, 0xFFF⟩, by decide, by decide⟩

theorem clr : Statement .clr := ⟨⟨0xF00, 0xFFF⟩, by decide, by decide⟩

theorem illegal (w : OpWord) : Statement (.illegal w) :=
  ⟨⟨0x000, 0x000⟩, by simp [opWordRows], by simp [Row.accepts]⟩

theorem pop : Statement .pop := rfl

theorem decBatt : Statement .decBatt := ⟨⟨0x03, 0xFF⟩, by decide, by decide⟩

theorem decCell : Statement .decCell := ⟨⟨0x04, 0xFF⟩, by decide, by decide⟩

theorem decInfo : Statement .decInfo := ⟨⟨0x05, 0xFF⟩, by decide, by decide⟩

theorem decUnsupported (cmd : Byte) : Statement (.decUnsupported cmd) :=
  ⟨⟨0x00, 0x00⟩, by simp [commandRows], by simp [Row.accepts]⟩

end Sys2Proof.Laws.MatchesRow
end

