-- ==== Sys2Proof/Laws/Step.lean ====
section
/-!
SUPPORT. The turns and the step: one equation per turn and the inversion of `step`; what dutiful words decode to.
-/

namespace Sys2Proof.Machine

variable {s t : State}

/-- With no turn scheduled no agent moves. -/
theorem step_nil (h : s.schedule = []) : step s = .next s := by
  simp [step, nextTurn, h]

/-- A scheduled turn is taken by the state without it. -/
theorem step_cons {u : Turn} {ts : List Turn} (h : s.schedule = u :: ts) :
    step s = takeTurn u (s.withSchedule ts) := by
  simp [step, nextTurn, h]

/-- The producer's turn with no word offered. -/
theorem producerTurn_nil (h : s.input = []) : producerTurn s = .next s := by
  simp [producerTurn, h]

/-- The producer's turn with a word offered: held, or taken off the port and run (30_encoding R72). -/
theorem producerTurn_cons {w : OpWord} {ws : List OpWord} (h : s.input = w :: ws) :
    producerTurn s =
      if holds (decodeWord w) s then .next s else exec (decodeWord w) (s.withInput ws) := by
  simp [producerTurn, h]

/-- A look runs the arm the frame selects and shows RESULT (41_payload_extractor R130, R131). -/
theorem lookTurn_eq (s : State) : lookTurn s = .next (s.observe (.result s.result)) := by
  unfold lookTurn State.result
  cases hs : s.slot with
  | none => rfl
  | some F =>
    cases hc : F[1]? with
    | none => simp [hc, extract]
    | some c =>
      have hsel : selects (decodeCommand c) F = true := by simp [selects, hc]
      have hx : extract F = armResult (decodeCommand c) F := extract_of_selects hsel
      simp only [Option.bind_some, hc, hx]
      unfold decodeCommand at hsel ⊢
      split_ifs at hsel ⊢ <;>
        simp_all [exec, execDecBatt, execDecCell, execDecInfo, execDecUnsupported, runArm, armResult]

/-- A read turn shows the answer, and records a fault of the reader where there is none (10_state R39). -/
theorem performRead_eq (s : State) (sel : BitVec 4) (idx : BitVec 16) :
    s.performRead sel idx =
      { s with observed := s.observed ++ [.read sel idx (rd s sel idx)],
               faults := s.faults ++ (if (rd s sel idx).isNone then [.readWithoutValue] else []) } := by
  unfold State.performRead
  split <;> simp_all [State.observe, State.recordReadFault]

/-- Everything a step can do, by the turn it takes. -/
theorem step_cases (h : step s = .next t) :
    (s.schedule = [] ∧ t = s) ∨
    ∃ u ts, s.schedule = u :: ts ∧
      ((u = .producer ∧ (s.input = [] ∨ ∃ w ws, s.input = w :: ws ∧ holds (decodeWord w) s = true) ∧
          t = s.withSchedule ts) ∨
        (u = .producer ∧ ∃ w ws, s.input = w :: ws ∧ holds (decodeWord w) s = false ∧
          exec (decodeWord w) ((s.withSchedule ts).withInput ws) = .next t) ∨
        (∃ sel idx, u = .consumer (.read sel idx) ∧ t = (s.withSchedule ts).performRead sel idx) ∨
        (u = .consumer .look ∧ t = (s.withSchedule ts).observe (.result s.result)) ∨
        (u = .consumer .pop ∧ t = (s.withSchedule ts).emptySlot) ∨
        (u = .reset ∧ t = (s.withSchedule ts).clear)) := by
  cases hs : s.schedule with
  | nil =>
    rw [step_nil hs] at h
    exact .inl ⟨rfl, by simpa using h.symm⟩
  | cons u ts =>
    rw [step_cons hs] at h
    refine .inr ⟨u, ts, rfl, ?_⟩
    cases u with
    | producer =>
      cases hi : s.input with
      | nil =>
        simp only [takeTurn, producerTurn, State.withSchedule_input, hi] at h
        exact .inl ⟨rfl, .inl rfl, by simpa using h.symm⟩
      | cons w ws =>
        have hh : holds (decodeWord w) (s.withSchedule ts) = holds (decodeWord w) s := rfl
        simp only [takeTurn, producerTurn, State.withSchedule_input, hi, hh] at h
        cases hd : holds (decodeWord w) s with
        | true => exact .inl ⟨rfl, .inr ⟨w, ws, rfl, hd⟩, by simpa [hd] using h.symm⟩
        | false => exact .inr (.inl ⟨rfl, w, ws, rfl, hd, by simpa [hd] using h⟩)
    | consumer a =>
      cases a with
      | read sel idx =>
        exact .inr (.inr (.inl ⟨sel, idx, rfl, by simpa [takeTurn, consumerTurn] using h.symm⟩))
      | look =>
        simp only [takeTurn, consumerTurn, lookTurn_eq] at h
        have hr : (s.withSchedule ts).result = s.result := rfl
        exact .inr (.inr (.inr (.inl ⟨rfl, by simpa [hr] using h.symm⟩)))
      | pop =>
        exact .inr (.inr (.inr (.inr (.inl ⟨rfl, by simpa [takeTurn, consumerTurn, exec, execPop] using h.symm⟩))))
    | reset =>
      exact .inr (.inr (.inr (.inr (.inr ⟨rfl, by simpa [takeTurn, resetTurn] using h.symm⟩))))

/-- The effect of a step on everything but the port and the schedule: none, what the consumer saw (with at most a
fault of the reader), the slot emptied, a clear, or `exec` of the word the producer had offered. -/
theorem step_effect (h : step s = .next t) :
    ∃ ws ts,
      (ws = s.input ∧ t = (s.withSchedule ts).withInput ws) ∨
      (ws = s.input ∧ (∃ a, s.schedule.head? = some (.consumer a)) ∧
        ∃ o new, (∀ f ∈ new, f = Fault.readWithoutValue) ∧
          t = { (s.withSchedule ts).withInput ws with
                observed := s.observed ++ [o], faults := s.faults ++ new }) ∨
      (ws = s.input ∧ s.schedule.head? = some (.consumer .pop) ∧
        t = ((s.withSchedule ts).withInput ws).emptySlot) ∨
      (ws = s.input ∧ s.schedule.head? = some .reset ∧ t = ((s.withSchedule ts).withInput ws).clear) ∨
      (s.schedule.head? = some .producer ∧ ∃ w, s.input = w :: ws ∧ holds (decodeWord w) s = false ∧
        exec (decodeWord w) ((s.withSchedule ts).withInput ws) = .next t) := by
  obtain ⟨-, rfl⟩ | ⟨u, ts, hs, hc⟩ := step_cases h
  · exact ⟨t.input, t.schedule, .inl ⟨rfl, rfl⟩⟩
  have hhead : s.schedule.head? = some u := by rw [hs]; rfl
  obtain ⟨rfl, -, rfl⟩ | ⟨rfl, w, ws, hi, hh, hx⟩ | ⟨sel, idx, rfl, rfl⟩ | ⟨rfl, rfl⟩ | ⟨rfl, rfl⟩ | ⟨rfl, rfl⟩ := hc
  · exact ⟨s.input, ts, .inl ⟨rfl, rfl⟩⟩
  · exact ⟨ws, ts, .inr (.inr (.inr (.inr ⟨hhead, w, hi, hh, hx⟩)))⟩
  · refine ⟨s.input, ts, .inr (.inl ⟨rfl, ⟨_, hhead⟩, _, _, ?_, performRead_eq _ _ _⟩)⟩
    intro f hf
    split at hf <;> simp_all
  · refine ⟨s.input, ts, .inr (.inl ⟨rfl, ⟨_, hhead⟩, .result s.result, [], by simp, ?_⟩)⟩
    simp [State.observe, State.withSchedule, State.withInput]
  · exact ⟨s.input, ts, .inr (.inr (.inl ⟨rfl, hhead, rfl⟩))⟩
  · exact ⟨s.input, ts, .inr (.inr (.inr (.inl ⟨rfl, hhead, rfl⟩)))⟩

/-- A run of no steps. -/
theorem run_zero (s : State) : Host.Core.run Sys2Proof.core 0 s = .next s := rfl

/-- A run of `k + 1` steps is one step and a run of `k` from where it leads. -/
theorem run_succ_eq (k : Nat) (s : State) :
    Host.Core.run Sys2Proof.core (k + 1) s =
      match step s with
      | .next m => Host.Core.run Sys2Proof.core k m
      | .fault r => .fault r
      | .refused r => .refused r := by
  generalize h : step s = o
  have h' : Sys2Proof.core.step s = o := h
  cases o <;> simp only [Host.Core.run, h']

/-- A run of `k + 1` steps that answers a next state goes through the state of its first step. -/
theorem run_succ {k : Nat} (h : Host.Core.run Sys2Proof.core (k + 1) s = .next t) :
    ∃ m, step s = .next m ∧ Host.Core.run Sys2Proof.core k m = .next t := by
  rw [run_succ_eq] at h
  cases hs : step s with
  | next m => exact ⟨m, rfl, by simpa [hs] using h⟩
  | fault r => simp [hs] at h
  | refused r => simp [hs] at h

/-- A run whose first step answers `m` goes on from `m`. -/
theorem run_step {k : Nat} {m : State} (h : step s = .next m) :
    Host.Core.run Sys2Proof.core (k + 1) s = Host.Core.run Sys2Proof.core k m := by
  rw [run_succ_eq, h]

/-- An induction over runs, once: a property that every step keeps holds after every run. -/
theorem run_keeps {P : State → Prop} (hstep : ∀ s t, P s → step s = .next t → P t) {k : Nat} :
    ∀ {s t : State}, P s → Host.Core.run Sys2Proof.core k s = .next t → P t := by
  induction k with
  | zero =>
    intro s t hs h
    cases h
    exact hs
  | succ k ih =>
    intro s t hs h
    obtain ⟨m, hm, hr⟩ := run_succ h
    exact ih (hstep s m hs hm) hr

/-- A word that feeds nothing decodes to NOP or to an ENC. -/
theorem feedsNothing_iff (w : OpWord) :
    feedsNothing w = true ↔ decodeWord w = .nop ∨ ∃ n : CommandName, decodeWord w = n.instr := by
  have hall : ∀ n, n ∈ allCommands := by intro n; cases n <;> decide
  simp [feedsNothing, hall]

/-- What the words of a producer that keeps its duties decode to: never a CLR, never an illegal word. -/
theorem dutifulWords_decode {ws : List OpWord} (h : dutifulWords ws) {w : OpWord} (hw : w ∈ ws) :
    decodeWord w = .nop ∨ (∃ n : CommandName, decodeWord w = n.instr) ∨ (∃ b, decodeWord w = .push b) ∨
      decodeWord w = .eoc := by
  obtain ⟨events, he⟩ := h
  by_cases hf : feedsNothing w = true
  · exact ((feedsNothing_iff w).1 hf).elim .inl fun hn => .inr (.inl hn)
  · have hm : w ∈ events.flatMap feedWords := by rw [← he]; simp [hw, hf]
    simp only [List.mem_flatMap, feedWords, List.mem_append, List.mem_map, List.mem_singleton] at hm
    obtain ⟨chunk, -, ⟨b, -, rfl⟩ | rfl⟩ := hm
    · have hpush : ∀ b, decodeWord (pushWord b) = .push b := by decide +kernel
      exact .inr (.inr (.inl ⟨b, hpush b⟩))
    · exact .inr (.inr (.inr (by decide)))

end Sys2Proof.Machine
end

