-- ==== Sys2Proof/Tests/Slice0.lean ====
section
/-!
SUPPORT. The model's own tests. Expected results are the vectors of spec/95_test_vectors.md, named in each comment, or
hand calculation from the rules. The witnesses show that the hypotheses of each obligation can be met.
-/

namespace Sys2Proof.Tests

open Sys2Proof Sys2Proof.Machine

/-! ### Frames of 95_test_vectors.md -/

def infoQuery : List Byte := [0xDD, 0xA5, 0x05, 0x00, 0xFF, 0xFB, 0x77]

def bat : List Byte :=
  [0xDD, 0x03, 0x00, 0x1B, 0x14, 0xC8, 0xFF, 0x38, 0x1F, 0x40, 0x27, 0x10] ++ List.replicate 12 0x00 ++
  [0x03, 0x04, 0x02, 0x0B, 0xA5, 0x0B, 0x9B, 0xFB, 0xDD, 0x77]

def bat31 : List Byte := bat.take 30 ++ [0x77]

def bat30 : List Byte := bat.take 29 ++ [0x77]

def cellTwo : List Byte := [0xDD, 0x04, 0x00, 0x04, 0x0C, 0xE4, 0x0C, 0xE5, 0xFE, 0x1B, 0x77]

def infoFrame : List Byte :=
  [0xDD, 0x05, 0x00, 0x08, 0x56, 0x41, 0x4E, 0x42, 0x4D, 0x53, 0x30, 0x31, 0xFD, 0xD0, 0x77]

/-- The reset state with an accumulator. -/
def withAcc (a : List Byte) : State := { State.reset with acc := a }

/-- The reset state with a frame in the slot. -/
def withSlot (F : List Byte) : State := { State.reset with slot := some F }

/-- A run: the words offered and the turns taken from the reset state. -/
def running (ws : List OpWord) (ts : List Turn) : State := State.reset.load ws ts

/-! ### Well-formed terms -/

/-- `illegal` of a legal word is no term of the table (R76). -/
theorem test_illegal_of_a_legal_word_is_ill_formed :
    (Instr.illegal 0x200).wellFormed = false ∧ (Instr.illegal 0x5AB).wellFormed = true := by decide

/-- `decUnsupported` of a supported command byte is no term of the table (R139). -/
theorem test_unsupported_of_a_supported_byte_is_ill_formed :
    (Instr.decUnsupported 0x04).wellFormed = false ∧ (Instr.decUnsupported 0x09).wellFormed = true := by decide

/-- A build below 34 or above 65535 bytes is no legal one (R8). -/
theorem test_builds_outside_the_range_are_illegal :
    Config.legal ⟨some 33⟩ = false ∧ Config.legal ⟨some 34⟩ = true ∧ Config.legal ⟨some 65535⟩ = true ∧
    Config.legal ⟨some 65536⟩ = false := by decide

/-! ### Decoding, from the words of the spec -/

/-- 30_encoding R71: `0000 0000 0000`, `0001 bbbb bbbb`, `0010 0000 0000`, `1111 0000 0000`. -/
theorem test_decode_decoder_words :
    decodeWord 0b000000000000 = .nop ∧ decodeWord 0b000101110111 = .push 0x77 ∧
    decodeWord 0b001000000000 = .eoc ∧ decodeWord 0b111100000000 = .clr := by decide

/-- 30_encoding R71, R91: `0011 0000 0nnn`. -/
theorem test_decode_enc_words :
    decodeWord 0b001100000000 = .encDischargeOn ∧ decodeWord 0b001100000001 = .encDischargeOff ∧
    decodeWord 0b001100000010 = .encChargeOn ∧ decodeWord 0b001100000011 = .encChargeOff ∧
    decodeWord 0b001100000100 = .encRequestRead ∧ decodeWord 0b001100000101 = .encRequestCellVoltage ∧
    decodeWord 0b001100000110 = .encRequestInfo := by decide

/-- 95 IL-1: words that are illegal. -/
theorem test_decode_illegal_words :
    ∀ w ∈ ([0x001, 0x0FF, 0x201, 0x2FF, 0x307, 0x3FF, 0x400, 0x5AB, 0xE00, 0xEFF, 0xF01, 0xFFF] : List OpWord),
      decodeWord w = .illegal w := by decide

/-- 95 IL-2: words that are legal. -/
theorem test_decode_legal_words :
    ∀ w ∈ ([0x000, 0x100, 0x1FF, 0x200, 0x300, 0x306, 0xF00] : List OpWord), isIllegalWord w = false := by decide

/-- 30_encoding R80: the command bytes. -/
theorem test_decode_command_bytes :
    decodeCommand 0x03 = .decBatt ∧ decodeCommand 0x04 = .decCell ∧ decodeCommand 0x05 = .decInfo ∧
    decodeCommand 0xA5 = .decUnsupported 0xA5 := by decide

/-- The table's numbers, and their rejections by name. -/
theorem test_decode_table_words :
    decodeTableWord 16 0x306 = some .encRequestInfo ∧ decodeTableWord 8 0x03 = some .decBatt ∧
    decodeTableWord 0 0 = some .pop ∧ decodeTableWord 16 0x1000 = none := by decide

/-- 30_encoding R77: assembler text. -/
theorem test_assembler_text :
    parseLine "PUSH 0xDd".toList = some (.push 0xDD) ∧ parseLine "ENC request_info".toList = some (.enc .requestInfo) ∧
    parseLine "ENC 7".toList = some .encSeven ∧ parseLine "FEED DD 77".toList = some (.feed [0xDD, 0x77]) ∧
    parseLine "FEED".toList = some (.feed []) ∧ parseLine "CLR 0".toList = none := by decide

/-- 95 P1: the words of `FEED DD A5 05 00`. -/
theorem test_feed_words : feedWords [0xDD, 0xA5, 0x05, 0x00] = [0x1DD, 0x1A5, 0x105, 0x100, 0x200] := by decide

/-! ### The frame decoder -/

/-- 95 FD-17. -/
theorem test_nop : exec .nop { withSlot cellTwo with ovf := true } = .next { withSlot cellTwo with ovf := true } := rfl

/-- R102's example. -/
theorem test_push_appends : exec (.push 0x05) (withAcc [0xDD, 0xA5]) = .next (withAcc [0xDD, 0xA5, 0x05]) := rfl

/-- 95 FD-12: the 35th byte on a build of 34. -/
theorem test_push_on_full_accumulator :
    exec (.push 0x77) { withAcc bat with cfg := ⟨some 34⟩ } =
      .next { withAcc bat with cfg := ⟨some 34⟩, ovf := true, faults := [.accumulatorOverflow] } := rfl

/-- R103's example, 95 FD-1. -/
theorem test_eoc_emits : exec .eoc (withAcc infoQuery) = .next (withSlot infoQuery) := rfl

/-- 95 FD-6: four bytes do not close. -/
theorem test_eoc_on_four_bytes :
    exec .eoc (withAcc [0xDD, 0x00, 0x00, 0x77]) = .next (withAcc [0xDD, 0x00, 0x00, 0x77]) := rfl

/-- 95 FD-16: CLR discards the frame in the slot and keeps TX. -/
theorem test_clr :
    exec .clr { withSlot cellTwo with acc := [0xDD, 0xA5, 0x05], ovf := true, ill := true, tx := [0x77] } =
      .next { State.reset with tx := [0x77] } := rfl

/-- 95 IL-3: ILL is set while OVF is. -/
theorem test_illegal_word :
    exec (decodeWord 0x5AB) { State.reset with ovf := true } =
      .next { State.reset with ovf := true, ill := true, faults := [.illegalWord] } := rfl

/-! ### The command table -/

/-- 95 CT-8: whole sequences, back to back. -/
theorem test_enc_back_to_back :
    exec .encRequestRead { State.reset with tx := infoQuery } =
      .next { State.reset with
        tx := [0xDD, 0xA5, 0x05, 0x00, 0xFF, 0xFB, 0x77, 0xDD, 0xA5, 0x03, 0x00, 0xFF, 0xFD, 0x77] } := rfl

/-- 95 CT-1 and CT-3: the two identical entries (R179). -/
theorem test_enc_discharge_on_and_charge_on :
    exec .encDischargeOn State.reset =
      .next { State.reset with tx := [0xDD, 0x5A, 0xE1, 0x02, 0x00, 0x00, 0xFF, 0x1D, 0x77] } ∧
    exec .encChargeOn State.reset = exec .encDischargeOn State.reset := ⟨rfl, rfl⟩

/-- 95 CT-2 and CT-4. -/
theorem test_enc_off :
    exec .encDischargeOff State.reset =
      .next { State.reset with tx := [0xDD, 0x5A, 0xE1, 0x02, 0x00, 0x02, 0xFF, 0x1B, 0x77] } ∧
    exec .encChargeOff State.reset =
      .next { State.reset with tx := [0xDD, 0x5A, 0xE1, 0x02, 0x00, 0x01, 0xFF, 0x1C, 0x77] } := ⟨rfl, rfl⟩

/-- 95 CT-6 and CT-7. -/
theorem test_enc_requests :
    exec .encRequestCellVoltage State.reset =
      .next { State.reset with tx := [0xDD, 0xA5, 0x04, 0x00, 0xFF, 0xFC, 0x77] } ∧
    exec .encRequestInfo State.reset = .next { State.reset with tx := infoQuery } := ⟨rfl, rfl⟩

/-! ### The payload extractor -/

/-- 95 PX-1. -/
theorem test_battery_frame :
    extract bat = some (.battery
      { voltageRaw := 5320, currentRaw := -200, chargeRaw := 8000, fullRaw := 10000, status := 0x03
        chargeOn := true, dischargeOn := true, temp1Raw := 2981, temp2Raw := 2971 }) := by decide +kernel

/-- 95 PX-2 and PX-3: the end marker as the low byte of temp2, and one byte too few. -/
theorem test_battery_bounds :
    (∃ b, extract bat31 = some (.battery b) ∧ b.temp2Raw = 2935) ∧ extract bat30 = some (.truncated 0x03) :=
  ⟨⟨_, rfl, by decide⟩, by decide⟩

/-- 95 PX-7 and PX-13. -/
theorem test_cell_frame :
    extract cellTwo = some (.cell 2 [3300, 3301]) ∧
    extract [0xDD, 0x04, 0x00, 0x04, 0x0C, 0xE4, 0x0C, 0x77] = some (.cell 2 [3300, 3191]) := by decide

/-- 95 PX-10, PX-12 and PX-14. -/
theorem test_cell_failures :
    extract [0xDD, 0x04, 0x00, 0x03, 0x77] = some (.badCount 0x04 3) ∧
    extract [0xDD, 0x04, 0x80, 0x00, 0x77] = some (.badCount 0x04 (-32768)) ∧
    extract [0xDD, 0x04, 0x00, 0x02, 0x77] = some (.truncated 0x04) ∧
    extract [0xDD, 0x04, 0x00, 0x02, 0xFF, 0xFF, 0x77] = some (.cell 1 [-1]) := by decide +kernel

/-- 95 PX-15 and PX-15b. -/
theorem test_info_frame :
    extract infoFrame = some (.info [0x56, 0x41, 0x4E, 0x42, 0x4D, 0x53, 0x30]) ∧
    extract [0xDD, 0x05, 0x00, 0x00, 0x77] = some (.info []) ∧
    extract [0xDD, 0x05, 0x00, 0x01, 0x41, 0x42, 0x43, 0x44, 0x77] = some (.info [0x41]) := by decide

/-- 95 PX-11 and PX-16. -/
theorem test_unsupported_frame :
    extract infoQuery = some (.unsupported 0xA5) ∧ extract [0xDD, 0x09, 0x77, 0x77, 0x77] = some (.unsupported 0x09) := by
  decide

/-- A look at RESULT runs the arm of the frame (R130, R131). -/
theorem test_look_runs_the_arm :
    step { withSlot infoQuery with schedule := [.consumer .look] } =
      .next { withSlot infoQuery with observed := [.result (some (.unsupported 0xA5))] } := rfl

/-! ### The consumer port -/

/-- 95 PO-1 and PO-2. -/
theorem test_pop :
    exec .pop { withSlot infoQuery with acc := [0xDD] } = .next (withAcc [0xDD]) ∧
    exec .pop State.reset = .next State.reset := ⟨rfl, rfl⟩

/-- 95 PX-1, the reads. -/
theorem test_battery_reads :
    [rd (withSlot bat) 3 0, rd (withSlot bat) 5 0, rd (withSlot bat) 5 1, rd (withSlot bat) 5 2,
      rd (withSlot bat) 5 5, rd (withSlot bat) 5 6, rd (withSlot bat) 5 7, rd (withSlot bat) 5 9, rd (withSlot bat) 2 0] =
    [some (.word 0x0001), some (.word 0x0003), some (.word 0x14C8), some (.word 0xFF38),
      some (.word 0x0003), some (.word 0x0001), some (.word 0x0001), some (.word 0x0B9B), some (.word 0x0022)] := by
  decide

/-- 95 PX-7 and PX-15, the reads. -/
theorem test_cell_and_info_reads :
    [rd (withSlot cellTwo) 5 10, rd (withSlot cellTwo) 5 11, rd (withSlot cellTwo) 6 1, rd (withSlot cellTwo) 6 2,
      rd (withSlot infoFrame) 5 12, rd (withSlot infoFrame) 5 13, rd (withSlot infoFrame) 4 10] =
    [some (.word 0x0002), some (.word 0x0004), some (.word 0x0CE5), none,
      some (.word 0x0004), some (.word 0x0007), some (.word 0x0030)] := by decide

/-- 95 PX-3, PX-10 and PX-12: the kinds of the failures, CMD and COUNT_RAW. -/
theorem test_failure_reads :
    [rd (withSlot bat30) 3 0, rd (withSlot bat30) 5 0, rd (withSlot bat30) 5 1,
      rd (withSlot [0xDD, 0x04, 0xFF, 0xFE, 0x00, 0x77]) 3 0, rd (withSlot [0xDD, 0x04, 0xFF, 0xFE, 0x00, 0x77]) 5 11,
      rd (withSlot [0xDD, 0x04, 0x00, 0x02, 0x77]) 3 0, rd (withSlot [0xDD, 0x04, 0x00, 0x02, 0x77]) 5 11] =
    [some (.word 4), some (.word 3), none, some (.word 6), some (.word 0xFFFE), some (.word 4), some (.word 2)] := by
  decide

/-- 95 PO-3, PO-5 and PO-6. -/
theorem test_status_reserved_and_missing_reads :
    [rd { withSlot infoQuery with ill := true } 0 0, rd State.reset 7 0, rd State.reset 15 0xFFFF, rd State.reset 5 14,
      rd (withSlot bat) 6 0, rd (withSlot bat) 5 10, rd (withSlot bat) 5 13, rd (withSlot bat) 4 34, rd State.reset 5 0] =
    [some (.word 0x0005), some (.word 0), some (.word 0), some (.word 0), none, none, none, none, none] := by decide

/-! ### The ports -/

/-- 95 FD-10: the EOC on a full slot is held and stays offered. -/
theorem test_held_eoc_stays_offered :
    step { withSlot infoQuery with acc := cellTwo, input := [0x200, 0xF00], schedule := [.producer] } =
      .next { withSlot infoQuery with acc := cellTwo, input := [0x200, 0xF00] } := rfl

/-- 95 RS-1: reset keeps TX. -/
theorem test_reset_turn :
    step { withSlot cellTwo with acc := [0x00, 0xDD], ovf := true, ill := true, tx := infoQuery, schedule := [.reset] } =
      .next { State.reset with tx := infoQuery } := rfl

/-- The very next step runs the word placed by `withFetchWord`. -/
theorem test_with_fetch_word :
    step (State.reset.withFetchWord 16 0x306) = .next { State.reset with tx := infoQuery } ∧
    (∃ t, step (State.reset.withFetchWord 8 0x04) = .next t ∧ t.observed = [.result (some (.cell 0 []))]) ∧
    step (State.reset.withFetchWord 0 0) = .next State.reset := ⟨rfl, ⟨_, rfl, by decide⟩, rfl⟩

/-- 95 SC-1, SC-3 and SC-7: the reference scaling (R151). -/
theorem test_scaling :
    volts 5320 = 532 / 10 ∧ celsius 2981 = 2495 / 100 ∧ celsius (-32768) = -354995 / 100 := by
  norm_num [volts, celsius]

/-! ### Witnesses: each obligation's hypotheses are met together, clause by clause, at the boundaries -/

/-- A build with room for 34 bytes. -/
def capped (a : List Byte) : State := { withAcc a with cfg := ⟨some 34⟩ }

/-- A held EOC with a CLR behind it. -/
def stalled (ts : List Turn) : State :=
  { withSlot infoQuery with acc := cellTwo, input := [eocWord, clrWord], schedule := ts }

theorem witness_ResetInputKeepsTheOfferedWord :
    (stalled [.reset, .producer]).schedule = .reset :: [.producer] ∧
    (stalled [.reset, .producer]).input = eocWord :: [clrWord] := ⟨rfl, rfl⟩

theorem witness_ResetLeavesTheResetValues :
    (State.initial ⟨some 34⟩ = State.reset ∨ ∃ c : Config, State.initial ⟨some 34⟩ = State.initial c) :=
  .inr ⟨⟨some 34⟩, rfl⟩

theorem witness_PushAppendsItsByte :
    ({ State.reset with ovf := true } : State).ovf = true ∧
    ((capped bat).ovf = false ∧ (capped bat).cfg.accCap = some (capped bat).acc.length) ∧
    ((capped (bat.take 33)).ovf = false ∧ (capped (bat.take 33)).cfg.accCap ≠ some (capped (bat.take 33)).acc.length) := by
  decide

theorem witness_EocEmitsHoldsOrWaits :
    ({ withSlot infoQuery with ovf := true } : State).ovf = true ∧
    ((withSlot infoQuery).ovf = false ∧ (withSlot infoQuery).slot = some infoQuery) ∧
    closes (withAcc [0xDD, 0x00, 0x00, 0x00, 0x77]).acc = true ∧ closes (withAcc [0xDD, 0x00, 0x00, 0x77]).acc = false ∧
    holds .eoc (stalled [.producer]) = true := by decide

theorem witness_EocHold_step : step (stalled [.producer]) = .next (stalled []) := rfl

theorem witness_ClrEqualsTheResetInput :
    exec .clr { State.reset with ovf := true, ill := true } = .next State.reset := rfl

theorem witness_IllegalWordRaisesIllAlone :
    (∀ w ∈ ([0x001, 0x0FF, 0x201, 0x2FF, 0x307, 0x3FF, 0x400, 0xEFF, 0xF01, 0xFFF] : List OpWord),
      isIllegalWord w = true) ∧
    (∀ w ∈ ([0x000, 0x1FF, 0x200, 0x306, 0xF00] : List OpWord), isIllegalWord w = false) := by decide

theorem witness_IllegalWordRaisesIllAlone_push :
    exec (.push 0x05) { State.reset with ill := true } = .next { withAcc [0x05] with ill := true } := rfl

theorem witness_IllegalWordsAreExactlyTheListed :
    decodeWord 0x400 = .illegal 0x400 ∧ decodeWord 0xEFF = .illegal 0xEFF ∧ decodeWord 0x3FF = .illegal 0x3FF := by
  decide

theorem witness_UnfiredGuardChangesNothing :
    ((capped bat).cfg.accCap = some 34 ∧ (capped bat).ovf = false ∧ (capped bat).acc.length = 34) ∧
    Host.Core.run Sys2Proof.core 2 ((capped (bat.take 33)).load [0x177, 0x200] [.producer, .producer]) =
      .next { withSlot bat with cfg := ⟨some 34⟩ } := ⟨by decide, rfl⟩

theorem witness_OverflowLocksUntilClrOrReset :
    step (({ capped bat with ovf := true } : State).load [clrWord] [.producer]) = .next (capped []) ∧
    step (({ capped bat with ovf := true } : State).load [0x177] [.producer]) =
      .next { capped bat with ovf := true } := ⟨rfl, rfl⟩

theorem witness_AccIsWrittenOnlyByItsOperations :
    step (running [0x1DD] [.producer]) = .next (withAcc [0xDD]) ∧ (withAcc [0xDD]).acc ≠ (running [0x1DD] []).acc :=
  ⟨rfl, by decide⟩

/-- FEED of one byte completing a frame, with an ENC between the words and a POP between the turns. -/
theorem witness_FeedEqualsTheSourceFeed :
    let s := (withAcc (infoQuery.take 6)).load ([0x306, 0x177] ++ eocWord :: [clrWord])
      [.producer, .consumer .pop, .producer, .producer]
    insideChunk [0x306, 0x177] = true ∧ noReset s.schedule = true ∧ s.ovf = false ∧
    (∃ mid, Host.Core.run Sys2Proof.core 3 s = .next mid ∧ mid.input = eocWord :: [clrWord] ∧ mid.ovf = false ∧
      ∃ t, step mid = .next t ∧ t.input = [clrWord] ∧ t.slot = some infoQuery) ∧
    (feed s.acc (pushedBytes [0x306, 0x177])).2 = [infoQuery] ∧
    (feed (infoQuery.take 3) (pushedBytes [0x306, 0x177])).2 = [] :=
  ⟨by decide, by decide, rfl, ⟨_, rfl, rfl, rfl, _, rfl, rfl, rfl⟩, by decide, by decide⟩

theorem witness_AtRestTheAccumulatorDoesNotClose :
    (withAcc infoQuery).ovf = false ∧ holds .eoc (withAcc infoQuery) = false ∧
    exec .eoc (withAcc infoQuery) = .next (withSlot infoQuery) ∧ exec .clr (withAcc infoQuery) = .next State.reset ∧
    resetTurn (withAcc infoQuery) = .next State.reset ∧ (withAcc [0xDD, 0x77]).acc = [0xDD, 0x77] :=
  ⟨rfl, rfl, rfl, rfl, rfl, rfl⟩

theorem witness_EmptyChunksNeverEmit :
    closes (withAcc [0xDD, 0x00, 0x00, 0x77]).acc = false ∧ pushedBytes [eocWord, eocWord] = [] ∧
    Host.Core.run Sys2Proof.core 2
      ((withAcc [0xDD, 0x00, 0x00, 0x77]).load [eocWord, eocWord] [.producer, .producer]) =
        .next (withAcc [0xDD, 0x00, 0x00, 0x77]) := ⟨by decide, by decide, rfl⟩

theorem witness_ClosingDependsOnTheEndsAlone :
    infoQuery.length = ([0xDD, 0, 0, 0, 0, 0, 0x77] : List Byte).length ∧
    infoQuery[0]? = ([0xDD, 0, 0, 0, 0, 0, 0x77] : List Byte)[0]? ∧
    infoQuery[infoQuery.length - 1]? = ([0xDD, 0, 0, 0, 0, 0, 0x77] : List Byte)[6]? := by decide

/-- A first frame of each command byte, and an accumulator that holds two frames. -/
theorem witness_FramesInOneChunkMerge :
    (closes infoQuery = true ∧ closes cellTwo = true ∧ closes bat = true ∧ closes infoFrame = true) ∧
    (infoQuery[1]? = some 0xA5 ∧ cellTwo[1]? = some 4 ∧ bat[1]? = some 3 ∧ infoFrame[1]? = some 5) ∧
    (withAcc (infoQuery ++ cellTwo)).ovf = false ∧ (withAcc (infoQuery ++ cellTwo)).slot = none := by decide

theorem witness_ChunkBoundariesChangeTheFrames :
    closes [0xDD, 0x03, 0x00, 0x1B, 0x14, 0x77] = true ∧ bat.drop 6 ≠ [] ∧ (bat.drop 6).head? ≠ some 0xDD := by decide

theorem witness_LeadingByteLocksTheDecoder :
    let s := (withAcc [0x00]).load [0x1DD, 0x200, 0x177] [.producer, .producer]
    s.acc = 0x00 :: [] ∧ noReset s.schedule = true ∧ noClr s.input = true ∧
    Host.Core.run Sys2Proof.core 2 s = .next { withAcc [0x00, 0xDD] with input := [0x177] } ∧
    s.input = [0x1DD, 0x200] ++ [0x177] ∧ s.ovf = false ∧ s.cfg.accCap = none :=
  ⟨rfl, by decide, by decide, rfl, rfl, rfl, rfl⟩

theorem witness_EncIsIndependentOfTheDecoder :
    exec CommandName.requestInfo.instr State.reset = .next { State.reset with tx := infoQuery } ∧
    exec CommandName.requestInfo.instr { withSlot bat with ovf := true } =
      .next { withSlot bat with ovf := true, tx := infoQuery } := ⟨rfl, rfl⟩

theorem witness_TxHoldsWholeSequences :
    step (running [0x306] [.producer]) = .next { State.reset with tx := infoQuery } ∧
    (running [0x306] [.producer]).txWhole := ⟨rfl, [], rfl⟩

theorem witness_S16IsTwosComplement :
    0x80 ≤ (0x80 : Byte).toNat ∧ (0x7F : Byte).toNat < 0x80 ∧ s16 0x80 0x00 = -32768 ∧ s16 0x7F 0xFF = 32767 := by
  decide

theorem witness_BatteryFrameGivesItsFields :
    (withSlot bat31).slot = some bat31 ∧ bat31[1]? = some 0x03 ∧ 31 ≤ bat31.length ∧
    (withSlot bat30).slot = some bat30 ∧ bat30[1]? = some 0x03 ∧ bat30.length < 31 := by decide

/-- Counts -2, 3 and 2, the last with one byte too few, and a frame that just holds its cells. -/
theorem witness_CellFrameGivesItsCells :
    (fieldAt [0xDD, 0x04, 0xFF, 0xFE, 0x77] 2 = -2 ∧ fieldAt [0xDD, 0x04, 0x00, 0x03, 0x77] 2 = 3) ∧
    (([0xDD, 0x04, 0x00, 0x02, 0x77] : List Byte)[1]? = some 0x04 ∧
      5 ≤ ([0xDD, 0x04, 0x00, 0x02, 0x77] : List Byte).length ∧
      fieldAt [0xDD, 0x04, 0x00, 0x02, 0x77] 2 = 2 * (1 : Nat) ∧
      ([0xDD, 0x04, 0x00, 0x02, 0x77] : List Byte).length < 4 + 2 * 1) ∧
    (fieldAt [0xDD, 0x04, 0x00, 0x02, 0x0C, 0x77] 2 = 2 * (1 : Nat) ∧
      4 + 2 * 1 ≤ ([0xDD, 0x04, 0x00, 0x02, 0x0C, 0x77] : List Byte).length) := by decide

theorem witness_InfoFrameGivesItsName :
    (withSlot infoFrame).slot = some infoFrame ∧ infoFrame[1]? = some 0x05 ∧ infoFrame.length - 8 ≤ 65535 ∧
    (14 : BitVec 16).toNat < infoFrame.length := by decide

theorem witness_OtherCommandIsUnsupported :
    (withSlot infoQuery).slot = some infoQuery ∧ infoQuery[1]? = some 0xA5 ∧
    (0xA5 : Byte) ≠ 3 ∧ (0xA5 : Byte) ≠ 4 ∧ (0xA5 : Byte) ≠ 5 := by decide

/-- Every clause: 95 PX-17, PX-12, PX-3, PX-2, PX-13, PX-15b. -/
theorem witness_EveryFrameHasOneResultInPriorityOrder :
    (closes infoQuery = true ∧ isSupportedCommand 0xA5 = false) ∧
    (closes [0xDD, 0x04, 0x00, 0x03, 0x77] = true ∧ fieldAt [0xDD, 0x04, 0x00, 0x03, 0x77] 2 % 2 = 1) ∧
    (closes [0xDD, 0x04, 0x00, 0x02, 0x77] = true ∧ (5 : Int) < 4 + fieldAt [0xDD, 0x04, 0x00, 0x02, 0x77] 2) ∧
    (closes [0xDD, 0x04, 0x00, 0x02, 0x0C, 0x77] = true ∧
      4 + fieldAt [0xDD, 0x04, 0x00, 0x02, 0x0C, 0x77] 2 ≤ (6 : Int)) ∧
    (closes bat30 = true ∧ bat30.length < 31) ∧ (closes bat31 = true ∧ 31 ≤ bat31.length) ∧
    (closes [0xDD, 0x05, 0x00, 0x00, 0x77] = true ∧ ([0xDD, 0x05, 0x00, 0x00, 0x77] : List Byte)[1]? = some 0x05) := by
  decide

theorem witness_ResultFieldsAreInRange :
    (∃ b, extract bat = some (.battery b)) ∧ extract cellTwo = some (.cell 2 [3300, 3301]) ∧
    extract [0xDD, 0x04, 0x80, 0x00, 0x77] = some (.badCount 0x04 (-32768)) :=
  ⟨⟨_, rfl⟩, by decide, by decide +kernel⟩

/-- 95 PX-18 and PX-19: other bytes behind the fields, another trailer. -/
theorem witness_UnreadBytesDoNotAffectTheResult :
    (bat[1]? = some 0x03 ∧ (bat.take 31 ++ [0x00, 0x77])[1]? = some 0x03 ∧ 31 ≤ (bat.take 31 ++ [0x00, 0x77]).length ∧
      ∀ o ∈ [4, 5, 6, 7, 8, 9, 10, 11, 24, 27, 28, 29, 30], bat[o]? = (bat.take 31 ++ [0x00, 0x77])[o]?) ∧
    (fieldAt cellTwo 2 = 2 * (2 : Nat) ∧ 4 + 2 * 2 ≤ cellTwo.length ∧
      cellTwo.take (4 + 2 * 2) = (cellTwo.take 8 ++ [0x00, 0x00, 0x77]).take (4 + 2 * 2)) ∧
    (infoFrame.length = (infoFrame.take 11 ++ [0x00, 0x00, 0x00, 0x77]).length ∧ 5 < infoFrame.length ∧
      infoFrame.take (infoFrame.length - 4) = (infoFrame.take 11 ++ [0x00, 0x00, 0x00, 0x77]).take 11) ∧
    (infoQuery[1]? = some 0xA5 ∧ ([0xDD, 0xA5, 0x77, 0x77, 0x77] : List Byte)[1]? = some 0xA5) := by decide

theorem witness_BatteryFlagsAreTheLowStatusBits :
    (∃ b, extract bat = some (.battery b) ∧ b.status = 0x03) ∧ (withSlot bat).slot = some bat := ⟨⟨_, rfl, rfl⟩, rfl⟩

theorem witness_LookingAtResultWritesNothing :
    ({ withSlot bat with schedule := [.consumer .look] } : State).schedule = .consumer .look :: [] := rfl

theorem witness_UnselectedArmChangesNothing :
    ((withSlot infoQuery).slot.bind fun F => F[1]?) ≠ some 0x03 ∧
    ((withSlot bat).slot.bind fun F => F[1]?) ≠ some 0x04 ∧ (State.reset.slot.bind fun F => F[1]?) ≠ some 0x05 ∧
    (State.reset.slot.bind fun F => F[1]?) ≠ some 0x09 := by decide

theorem witness_PopEmptiesTheSlotAlone :
    State.reset.slot = none ∧ ({ withSlot bat with schedule := [.consumer .pop] } : State).schedule = .consumer .pop :: [] :=
  ⟨rfl, rfl⟩

/-- The greatest length that fits 16 bits and the first that does not. -/
theorem witness_AccLenReadsTheLength :
    (withAcc (List.replicate 65535 0)).acc.length ≤ 65535 ∧ 65535 < (withAcc (List.replicate 65536 0)).acc.length := by
  simp only [withAcc, List.length_replicate]
  decide

theorem witness_OutLenReadsTheFrameLength :
    State.reset.slot = none ∧ (withSlot bat).slot = some bat ∧ bat.length ≤ 65535 ∧
    ({ withSlot bat with cfg := ⟨some 34⟩ } : State).inv = true := by decide

theorem witness_ResultKindFollowsTheSlot :
    State.reset.slotOk = true ∧ (withSlot bat).slotOk = true ∧
    step ((withAcc infoQuery).load [eocWord] [.producer]) = .next (withSlot infoQuery) ∧
    (withSlot infoQuery).result ≠ (withAcc infoQuery).result ∧ (withSlot infoQuery).slot ≠ (withAcc infoQuery).slot :=
  ⟨by decide, by decide, rfl, by decide, by decide⟩

theorem witness_ReadsHaveAValueExactlyWhereValid :
    (withSlot bat).slotOk = true ∧ bat[(33 : BitVec 16).toNat]? = some 0x77 ∧ (rd (withSlot bat) 4 33).isSome = true ∧ rd (withSlot bat) 4 34 = none ∧
    (rd (withSlot cellTwo) 6 1).isSome = true ∧ rd (withSlot cellTwo) 6 2 = none ∧
    (rd (withSlot bat) 5 9).isSome = true ∧ rd (withSlot bat) 5 13 = none ∧
    7 ≤ (7 : BitVec 4).toNat ∧ 14 ≤ (14 : BitVec 16).toNat := by decide

theorem witness_ReadWithoutAValue_turn :
    ({ withSlot bat with schedule := [.consumer (.read 4 34)] } : State).schedule = .consumer (.read 4 34) :: [] ∧
    rd { withSlot bat with schedule := [.consumer (.read 4 34)] } 4 34 = none := ⟨rfl, by decide⟩

theorem witness_ReadsHaveNoSideEffect :
    rd (withSlot bat) 2 0 = some (.word 34) ∧
    step { withSlot bat with schedule := [.consumer (.read 2 0)] } =
      .next { withSlot bat with observed := [.read 2 0 (some (.word 34))] } := ⟨by decide, rfl⟩

theorem witness_NothingToReadAfterPop : exec .pop (withSlot bat) = .next State.reset ∧ (13 : BitVec 16).toNat < 14 :=
  ⟨rfl, by decide⟩

theorem witness_StepRunsTheDecodedOperation :
    (stalled [.producer]).input = eocWord :: [clrWord] ∧ holds (decodeWord eocWord) (stalled [.producer]) = true ∧
    holds (decodeWord clrWord) (stalled [.producer]) = false ∧
    (withSlot bat).slot = some bat ∧ bat[1]? = some 0x03 := by decide

theorem witness_InputPortKeepsItsOrder :
    step (running [0x1DD, 0x200] [.producer]) = .next { withAcc [0xDD] with input := [0x200] } ∧
    holds (decodeWord 0x1DD) (running [0x1DD, 0x200] [.producer]) = false ∧
    holds (decodeWord eocWord) (stalled [.producer]) = true := ⟨rfl, rfl, rfl⟩

theorem witness_EocAndPopInterleaveHarmlessly :
    (stalled []).input = eocWord :: [clrWord] ∧ (stalled []).ovf = false ∧ (stalled []).slot = some infoQuery ∧
    closes (stalled []).acc = true ∧ closes (withAcc [0xDD, 0x77]).acc = false := by decide

theorem witness_FullSlotStallsTheProducer :
    let s := stalled [.producer, .consumer (.read 0 0), .producer]
    s.input = eocWord :: [clrWord] ∧ holds .eoc s = true ∧ noReset s.schedule = true ∧ .consumer .pop ∉ s.schedule ∧
    ∃ t, Host.Core.run Sys2Proof.core 3 s = .next t := ⟨rfl, rfl, by decide, by decide, _, rfl⟩

/-- Turns that alternate a producer turn and a POP. -/
def alternating (n : Nat) : Turn := if n % 2 = 0 then .producer else .consumer .pop

/-- One NOP offered, then accepted. -/
def acceptingRun : Nat → State
  | 0 => { State.reset with input := [0x000] }
  | _ + 1 => State.reset

theorem witness_FairRunsAcceptEveryWord :
    IsRun alternating acceptingRun ∧ WeaklyFair alternating ∧ (acceptingRun 0).input = 0x000 :: [] := by
  refine ⟨fun n => ?_, ⟨fun n => ⟨2 * n, by omega, by simp [alternating]⟩,
    fun n => ⟨2 * n + 1, by omega, by simp [alternating]⟩⟩, rfl⟩
  cases n with
  | zero => rfl
  | succ n =>
    unfold alternating
    split <;> rfl

theorem witness_FlagsAreSticky :
    step ((capped bat).load [0x177] [.producer]) =
      .next { capped bat with ovf := true, faults := [.accumulatorOverflow] } ∧
    step (running [0x5AB] [.producer]) = .next { State.reset with ill := true, faults := [.illegalWord] } ∧
    step (({ State.reset with ill := true } : State).load [clrWord] [.producer]) = .next State.reset ∧
    step (({ State.reset with ovf := true } : State).load [] [.reset]) = .next State.reset := ⟨rfl, rfl, rfl, rfl⟩

/-- A change of each field that an operation may change. -/
theorem witness_OperationsKeepTheirFrame :
    exec (.push 0xDD) State.reset = .next (withAcc [0xDD]) ∧ exec .eoc (withAcc infoQuery) = .next (withSlot infoQuery) ∧
    exec .encRequestInfo State.reset = .next { State.reset with tx := infoQuery } ∧
    exec (.illegal 0x400) State.reset = .next { State.reset with ill := true, faults := [.illegalWord] } ∧
    exec (.decUnsupported 0xA5) (withSlot infoQuery) =
      .next { withSlot infoQuery with observed := [.result (some (.unsupported 0xA5))] } := ⟨rfl, rfl, rfl, rfl, rfl⟩

theorem witness_EveryStepKeepsTheInvariant :
    ({ capped bat with ovf := true, slot := some infoQuery } : State).inv = true ∧
    step ((capped bat).load [eocWord] [.producer]) = .next { withSlot bat with cfg := ⟨some 34⟩ } := ⟨by decide, rfl⟩

theorem witness_ResetMeetsTheInvariant : Config.legal ⟨some 34⟩ = true ∧ Config.legal ⟨some 65535⟩ = true := by decide

theorem witness_FlagsAreRecordedAsFaults :
    step (running [0x5AB] [.producer]) = .next { State.reset with ill := true, faults := [.illegalWord] } ∧
    (running [0x5AB] [.producer]).flagsRecorded ∧
    step (running [0x000] [.producer]) = .next State.reset ∧ State.reset.isFinal = true :=
  ⟨rfl, by unfold State.flagsRecorded; decide, rfl, by decide⟩

theorem witness_DutifulProducersRaiseNoFlag :
    dutifulWords [0x1DD, 0x200, 0x306] ∧ dutifulWords [0x1DD, 0x306, 0x000, 0x177, 0x200, 0x200] ∧
    ¬ feedsNothing 0xF00 ∧ ¬ feedsNothing 0x307 ∧ (running [0x1DD, 0x200, 0x306] [.producer]).cfg.accCap = none ∧
    (running [0x1DD, 0x200, 0x306] [.producer]).flagsClear = true ∧
    Host.Core.run Sys2Proof.core 1 (running [0x1DD, 0x200, 0x306] [.producer]) =
      .next { withAcc [0xDD] with input := [0x200, 0x306] } :=
  ⟨⟨[[0xDD]], by decide⟩, ⟨[[0xDD, 0x77], []], by decide⟩, by decide, by decide, rfl, by decide, rfl⟩

theorem witness_DecodeOfEncodeIsTheInstruction :
    (Instr.illegal 0xFFF).wellFormed = true ∧ (Instr.decUnsupported 0x06).wellFormed = true ∧
    (Instr.push 0xFF).wellFormed = true := by decide

theorem witness_BlockEqualsTheSoftware :
    let s := running ([infoQuery.take 4, infoQuery.drop 4].flatMap feedWords)
      ([infoQuery.take 4, infoQuery.drop 4].flatMap chunkTurns)
    s.cfg.accCap = none ∧ s.ovf = false ∧ s.slot = none ∧
    software [] [infoQuery.take 4, infoQuery.drop 4] = ([], [none, some (.unsupported 0xA5)]) :=
  ⟨rfl, rfl, rfl, by decide⟩

end Sys2Proof.Tests
end

section
/-!
PROOFS. The statements of 00_scope: the invariant of the state under every step, the block against the source's
software, and `s16`.
-/

namespace Sys2Proof.Machine

/-! ### The invariant -/

/-- A build without a bound holds every length, another one the lengths up to its capacity (10_state R23). -/
theorem holdsBytes_iff (c : Config) (n : Nat) :
    c.holdsBytes n = true ↔ ∀ cap, c.accCap = some cap → n ≤ cap := by
  unfold Config.holdsBytes
  cases c.accCap <;> simp

theorem slotOk_iff (s : State) :
    s.slotOk = true ↔ ∀ F, s.slot = some F → closes F = true ∧ s.cfg.holdsBytes F.length = true := by
  unfold State.slotOk
  cases s.slot <;> simp

theorem inv_iff (s : State) :
    s.inv = true ↔ s.cfg.legal = true ∧ s.cfg.holdsBytes s.acc.length = true ∧ s.slotOk = true ∧
      (s.ovf = true → s.accFull = true) := by
  unfold State.inv
  cases s.ovf <;> simp [and_assoc]

/-- The invariant speaks of the build, ACC, the slot and OVF alone. -/
theorem inv_congr {s t : State} (hcfg : t.cfg = s.cfg) (hacc : t.acc = s.acc) (hslot : t.slot = s.slot)
    (hovf : t.ovf = s.ovf) : t.inv = s.inv := by
  simp [State.inv, State.slotOk, State.accFull, hcfg, hacc, hslot, hovf]

/-- The guard fires over a full accumulator only, so OVF is set over one. -/
theorem inv_raiseOvf {s : State} (h : s.inv = true) (hfull : s.accFull = true) : s.raiseOvf.inv = true := by
  obtain ⟨hlegal, hacc, hslot, -⟩ := (inv_iff s).1 h
  exact (inv_iff _).2 ⟨hlegal, hacc, hslot, fun _ => hfull⟩

/-- An accumulator that is not full has room for one more byte. -/
theorem holdsBytes_succ {s : State} (hacc : s.cfg.holdsBytes s.acc.length = true) (hfull : s.accFull = false) :
    s.cfg.holdsBytes (s.acc.length + 1) = true := by
  rw [holdsBytes_iff] at hacc ⊢
  intro cap hcap
  have hle : s.acc.length ≤ cap := hacc cap hcap
  have hne : cap ≠ s.acc.length := by simpa [State.accFull, hcap] using hfull
  omega

theorem inv_appendAcc {s : State} (h : s.inv = true) (hovf : s.ovf = false) (hfull : s.accFull = false) (b : Byte) :
    (s.appendAcc b).inv = true := by
  obtain ⟨hlegal, hacc, hslot, -⟩ := (inv_iff s).1 h
  exact (inv_iff _).2 ⟨hlegal, by simpa using holdsBytes_succ hacc hfull, hslot, by simp [hovf]⟩

/-- The emitted frame closes and was within the capacity as the accumulator. -/
theorem inv_emitAcc {s : State} (h : s.inv = true) (hovf : s.ovf = false) (hcloses : closes s.acc = true) :
    s.emitAcc.inv = true := by
  obtain ⟨hlegal, hacc, -, -⟩ := (inv_iff s).1 h
  exact (inv_iff _).2
    ⟨hlegal, by simp [holdsBytes_iff], by simp [slotOk_iff, hcloses, hacc], by simp [hovf]⟩

theorem inv_emptySlot {s : State} (h : s.inv = true) : s.emptySlot.inv = true := by
  obtain ⟨hlegal, hacc, -, hfull⟩ := (inv_iff s).1 h
  exact (inv_iff _).2 ⟨hlegal, hacc, by simp [slotOk_iff], hfull⟩

theorem inv_clear {s : State} (h : s.inv = true) : s.clear.inv = true := by
  obtain ⟨hlegal, -, -, -⟩ := (inv_iff s).1 h
  exact (inv_iff _).2 ⟨hlegal, by simp [holdsBytes_iff], by simp [slotOk_iff], by simp⟩

/-- Every operation keeps the invariant and the build. -/
theorem exec_keeps_inv {i : Instr} {s t : State} (hinv : s.inv = true) (h : exec i s = .next t) :
    t.inv = true ∧ t.cfg = s.cfg := by
  obtain rfl | ⟨b, -, -, hfull, rfl⟩ | ⟨b, -, hovf, hfull, rfl⟩ | ⟨-, hovf, -, hcloses, rfl⟩ | ⟨-, rfl⟩ |
    ⟨w, -, rfl⟩ | ⟨n, -, rfl⟩ | ⟨-, rfl⟩ | ⟨F, r, -, -, -, rfl⟩ := exec_cases h
  · exact ⟨hinv, rfl⟩
  · exact ⟨inv_raiseOvf hinv hfull, rfl⟩
  · exact ⟨inv_appendAcc hinv hovf hfull b, rfl⟩
  · exact ⟨inv_emitAcc hinv hovf hcloses, rfl⟩
  · exact ⟨inv_clear hinv, rfl⟩
  · exact ⟨(inv_congr rfl rfl rfl rfl).trans hinv, rfl⟩
  · exact ⟨(inv_congr rfl rfl rfl rfl).trans hinv, rfl⟩
  · exact ⟨inv_emptySlot hinv, rfl⟩
  · exact ⟨(inv_congr rfl rfl rfl rfl).trans hinv, rfl⟩

/-- Settles O50: the ports touch neither the build nor ACC nor the slot nor OVF, so a step keeps the invariant because
POP, the reset and every operation do. -/
theorem everyStepKeepsTheInvariant : Obligations.EveryStepKeepsTheInvariant := by
  intro s t hinv h
  obtain ⟨ws, ts, hcase⟩ := step_effect h
  have hport : ((s.withSchedule ts).withInput ws).inv = true := (inv_congr rfl rfl rfl rfl).trans hinv
  obtain ⟨-, rfl⟩ | ⟨-, -, o, new, -, rfl⟩ | ⟨-, -, rfl⟩ | ⟨-, -, rfl⟩ | ⟨-, w, -, -, hexec⟩ := hcase
  · exact ⟨hport, rfl⟩
  · exact ⟨(inv_congr rfl rfl rfl rfl).trans hinv, rfl⟩
  · exact ⟨inv_emptySlot hport, rfl⟩
  · exact ⟨inv_clear hport, rfl⟩
  · exact exec_keeps_inv (s := (s.withSchedule ts).withInput ws) hport hexec

/-! ### The block against the software -/

@[simp] theorem decodeWord_pushWord (b : Byte) : decodeWord (pushWord b) = .push b := by
  revert b
  decide +kernel

@[simp] theorem decodeWord_eocWord : decodeWord eocWord = .eoc := by decide

/-- Feeding a chunk is appending it and then testing the boundary (40_frame_decoder R109). -/
theorem feed_append_nil (acc chunk : List Byte) : feed (acc ++ chunk) [] = feed acc chunk := by
  simp [feed]

/-- A producer turn with a word that is not held runs the word's operation (30_encoding R72). -/
theorem step_accepts {s : State} {w : OpWord} {ws : List OpWord} {ts : List Turn} (hin : s.input = w :: ws)
    (hsch : s.schedule = .producer :: ts) (hheld : holds (decodeWord w) s = false) :
    step s = exec (decodeWord w) ((s.withSchedule ts).withInput ws) := by
  have hheld' : holds (decodeWord w) (s.withSchedule ts) = false := hheld
  rw [step_cons hsch, takeTurn, producerTurn_cons (s := s.withSchedule ts) hin, if_neg (by simp [hheld'])]

/-- The unbounded build with OVF clear appends every pushed byte (40_frame_decoder R102). -/
theorem exec_push_unbounded {s : State} (hcap : s.cfg.accCap = none) (hovf : s.ovf = false) (b : Byte) :
    exec (.push b) s = .next (s.appendAcc b) := by
  simp [exec, execPush, State.accFull, hcap, hovf]

/-- With OVF clear and the slot empty, an EOC leaves what `Feed` of no further byte gives (40_frame_decoder R103,
R109). -/
theorem exec_eoc_eq_feed {s : State} (hovf : s.ovf = false) (hslot : s.slot = none) :
    exec .eoc s = .next { s with acc := (feed s.acc []).1, slot := (feed s.acc []).2.head? } := by
  obtain ⟨hc, hf⟩ | ⟨hc, hf⟩ := feed_cases s.acc [] <;> rw [List.append_nil] at hc hf
  · simp [exec, execEoc, State.outValid, State.emitAcc, hovf, hslot, hc, hf]
  · have hstay : exec .eoc s = .next s := by simp [exec, execEoc, State.outValid, hovf, hslot, hc]
    rw [hstay, hf, List.head?_nil, ← hslot]

/-- A producer turn with a PUSH offered to the unbounded build appends the byte. -/
theorem step_pushWord {s : State} {b : Byte} {ws : List OpWord} {ts : List Turn} (hcap : s.cfg.accCap = none)
    (hovf : s.ovf = false) (hin : s.input = pushWord b :: ws) (hsch : s.schedule = .producer :: ts) :
    step s = .next { s with acc := s.acc ++ [b], input := ws, schedule := ts } := by
  rw [step_accepts hin hsch (by simp [holds]), decodeWord_pushWord]
  exact exec_push_unbounded (s := (s.withSchedule ts).withInput ws) hcap hovf b

/-- A producer turn with an EOC offered and the slot empty is a `Feed` of no further byte. -/
theorem step_eocWord {s : State} {ws : List OpWord} {ts : List Turn} (hovf : s.ovf = false) (hslot : s.slot = none)
    (hin : s.input = eocWord :: ws) (hsch : s.schedule = .producer :: ts) :
    step s = .next { s with acc := (feed s.acc []).1, slot := (feed s.acc []).2.head?, input := ws,
                            schedule := ts } := by
  rw [step_accepts hin hsch (by simp [holds, hslot]), decodeWord_eocWord]
  exact exec_eoc_eq_feed (s := (s.withSchedule ts).withInput ws) hovf hslot

/-- A look, then a POP: RESULT is seen and the slot is empty. -/
theorem run_look_pop {s : State} {ts : List Turn} (hsch : s.schedule = .consumer .look :: .consumer .pop :: ts)
    (k : Nat) :
    Host.Core.run core (k + 2) s =
      Host.Core.run core k
        { s with slot := none, schedule := ts, observed := s.observed ++ [.result s.result] } := by
  have hlook : step s =
      .next { s with schedule := .consumer .pop :: ts, observed := s.observed ++ [.result s.result] } := by
    rw [step_cons hsch, takeTurn, consumerTurn, lookTurn_eq]
    rfl
  rw [run_step hlook]
  exact run_step rfl

/-- The PUSHes of a chunk, a producer turn each, append it to the accumulator of the unbounded build. -/
theorem run_pushWords (chunk : List Byte) {ws : List OpWord} {ts : List Turn} (k : Nat) :
    ∀ {s : State}, s.cfg.accCap = none → s.ovf = false → s.input = chunk.map pushWord ++ ws →
      s.schedule = List.replicate chunk.length .producer ++ ts →
      Host.Core.run core (k + chunk.length) s =
        Host.Core.run core k { s with acc := s.acc ++ chunk, input := ws, schedule := ts } := by
  induction chunk with
  | nil =>
    intro s _ _ hin hsch
    obtain ⟨rfl, rfl⟩ : s.input = ws ∧ s.schedule = ts := ⟨by simpa using hin, by simpa using hsch⟩
    simp
  | cons b chunk ih =>
    intro s hcap hovf hin hsch
    refine (run_step (step_pushWord hcap hovf hin hsch)).trans ?_
    refine Eq.trans (ih hcap hovf rfl rfl) ?_
    simp

/-- One chunk through the whole block: the accumulator of `Feed`, the outcome of its frame seen, the slot empty. -/
theorem run_chunkTurns {s : State} {chunk : List Byte} {ws : List OpWord} {ts : List Turn}
    (hcap : s.cfg.accCap = none) (hovf : s.ovf = false) (hslot : s.slot = none)
    (hin : s.input = feedWords chunk ++ ws) (hsch : s.schedule = chunkTurns chunk ++ ts) (k : Nat) :
    Host.Core.run core (k + (chunkTurns chunk).length) s =
      Host.Core.run core k
        { s with acc := (feed s.acc chunk).1, input := ws, schedule := ts,
                 observed := s.observed ++ [.result ((feed s.acc chunk).2.head?.bind extract)] } := by
  have hlen : k + (chunkTurns chunk).length = k + 2 + 1 + chunk.length := by
    simp [chunkTurns]
    omega
  have hpushes : s.input = chunk.map pushWord ++ (eocWord :: ws) := by simpa [feedWords] using hin
  have hturns : s.schedule = List.replicate chunk.length .producer ++
      (.producer :: .consumer .look :: .consumer .pop :: ts) := by
    simpa [chunkTurns, List.replicate_succ'] using hsch
  rw [hlen]
  refine (run_pushWords chunk _ hcap hovf hpushes hturns).trans ?_
  refine Eq.trans (run_step (step_eocWord hovf hslot rfl rfl)) ?_
  refine Eq.trans (run_look_pop rfl k) ?_
  simp only [feed_append_nil, State.result, hslot]

/-- Settles O59, by induction on the chunks, one run of a chunk's turns at a time. -/
theorem blockEqualsTheSoftware : Obligations.BlockEqualsTheSoftware := by
  intro chunks
  induction chunks with
  | nil =>
    intro s _ _ _ hin hsch
    rw [List.flatMap_nil] at hin hsch ⊢
    refine (run_zero s).trans ?_
    simp [software, ← hin, ← hsch]
  | cons chunk chunks ih =>
    intro s hcap hovf hslot hin hsch
    rw [List.flatMap_cons] at hin hsch ⊢
    rw [List.length_append, Nat.add_comm]
    refine (run_chunkTurns hcap hovf hslot hin hsch _).trans ?_
    refine Eq.trans (ih _ hcap hovf hslot rfl rfl) ?_
    simp [software]

/-! ### `s16` -/

/-- Two bytes side by side, the first one the high one (00_scope R12). -/
theorem toNat_bytePair (hi lo : Byte) : (hi ++ lo : BitVec 16).toNat = hi.toNat * 256 + lo.toNat := by
  rw [BitVec.toNat_append, ← Nat.shiftLeft_add_eq_or_of_lt lo.isLt, Nat.shiftLeft_eq]

/-- `s16` is the two's-complement value of the 16 bits: the sign bit of the pair is bit 7 of the high byte. -/
theorem s16_eq_toInt (hi lo : Byte) : s16 hi lo = (hi ++ lo : BitVec 16).toInt := by
  have hlo : lo.toNat < 256 := lo.isLt
  rw [BitVec.toInt_eq_toNat_cond, toNat_bytePair, s16]
  split <;> split <;> omega

/-- Settles O23. -/
theorem s16IsTwosComplement : Obligations.S16IsTwosComplement := by
  intro hi lo
  refine ⟨s16_eq_toInt hi lo, ?_, fun hneg => ?_, fun hpos => ?_⟩
  · rw [pattern16, s16_eq_toInt, BitVec.ofInt_toInt]
  · simp [s16, hneg]
  · simp [s16, hpos]

end Sys2Proof.Machine
end

section
/-!
PROOFS. The statements of 10_state: who writes ACC and the flags, the reset values, and what the read map gives.
-/

namespace Sys2Proof.Machine

/-! ### The read map, one equation per selector (10_state R37) -/

section ReadMap

variable (s : State) (idx : BitVec 16)

theorem rd_status : rd s 0 idx = some (.word s.statusWord) := rfl
theorem rd_accLen : rd s 1 idx = some s.accLen := rfl
theorem rd_outLen : rd s 2 idx = some (.word s.outLen) := rfl
theorem rd_resultKind : rd s 3 idx = some (.word (resultCode s.result)) := rfl
theorem rd_outByte : rd s 4 idx = (s.outByte idx.toNat).map .word := rfl
theorem rd_field : rd s 5 idx = (s.field idx.toNat).map .word := rfl
theorem rd_cell : rd s 6 idx = (s.cell idx.toNat).map .word := rfl

/-- The selectors from 7 on are reserved. -/
theorem rd_reserved {sel : BitVec 4} (h : 7 ≤ sel.toNat) : rd s sel idx = some (.word 0) := by
  unfold rd
  split
  case h_8 => rfl
  all_goals omega

/-- Only OUT_BYTE, FIELD and CELL can be without a value. -/
theorem rd_isSome_of_ne {sel : BitVec 4} (h4 : sel ≠ 4) (h5 : sel ≠ 5) (h6 : sel ≠ 6) :
    (rd s sel idx).isSome = true := by
  unfold rd
  split
  case h_5 h => exact absurd (BitVec.eq_of_toNat_eq h) h4
  case h_6 h => exact absurd (BitVec.eq_of_toNat_eq h) h5
  case h_7 h => exact absurd (BitVec.eq_of_toNat_eq h) h6
  all_goals rfl

end ReadMap

/-! ### The scalar registers -/

/-- The flags stand at bits 0, 1 and 2, and the other bits read 0 (10_state R32). -/
theorem statusWord_bits (s : State) :
    s.statusWord.getLsbD 0 = s.slot.isSome ∧ s.statusWord.getLsbD 1 = s.ovf ∧ s.statusWord.getLsbD 2 = s.ill ∧
      ∀ i, 3 ≤ i → s.statusWord.getLsbD i = false := by
  have hbit : ∀ i, s.statusWord.getLsbD i = BitVec.getLsbD (w := 13 + 1 + 1 + 1)
      (0#13 ++ BitVec.ofBool s.ill ++ BitVec.ofBool s.ovf ++ BitVec.ofBool s.slot.isSome) i := fun i => rfl
  simp only [hbit, BitVec.getLsbD_append, BitVec.getLsbD_ofBool]
  refine ⟨rfl, rfl, rfl, fun i hi => ?_⟩
  simp [show ¬ i < 1 by omega, show ¬ i - 1 < 1 by omega, show ¬ i - 1 - 1 < 1 by omega]

theorem statusWord_eq_zero {s : State} (hslot : s.slot = none) (hovf : s.ovf = false) (hill : s.ill = false) :
    s.statusWord = 0 := by
  simp [State.statusWord, State.outValid, hslot, hovf, hill]

theorem accLen_of_le {s : State} (h : s.acc.length ≤ 65535) :
    s.accLen = .word (BitVec.ofNat 16 s.acc.length) :=
  if_pos (by omega)

theorem accLen_of_gt {s : State} (h : 65535 < s.acc.length) : s.accLen = .natural s.acc.length :=
  if_neg (by omega)

theorem outLen_of_empty {s : State} (h : s.slot = none) : s.outLen = 0 := by
  simp [State.outLen, h]

theorem outLen_of_le {s : State} {F : List Byte} (h : s.slot = some F) (hF : F.length ≤ 65535) :
    s.outLen = BitVec.ofNat 16 F.length := by
  simp [State.outLen, h, show F.length < 65536 by omega]

/-- A length of at most 65535 is read back from its 16 bits. -/
theorem toNat_ofNat_length {n : Nat} (h : n ≤ 65535) : (BitVec.ofNat 16 n).toNat = n := by
  rw [BitVec.toNat_ofNat, Nat.mod_eq_of_lt (by omega)]

/-- With the four elements of the state at their reset values, the scalar registers read 0 (10_state R41). -/
theorem scalarReads_eq_zero {s : State} (hacc : s.acc = []) (hslot : s.slot = none) (hovf : s.ovf = false)
    (hill : s.ill = false) (idx : BitVec 16) :
    rd s 0 idx = some (.word 0) ∧ rd s 1 idx = some (.word 0) ∧ rd s 2 idx = some (.word 0) ∧
      rd s 3 idx = some (.word 0) := by
  refine ⟨?_, ?_, ?_, ?_⟩
  · rw [rd_status, statusWord_eq_zero hslot hovf hill]
  · rw [rd_accLen, accLen_of_le (by simp [hacc]), hacc]
    rfl
  · rw [rd_outLen, outLen_of_empty hslot]
  · simp only [rd_resultKind, State.result, hslot, Option.bind_none, resultCode]

/-- Settles O1. -/
theorem resetLeavesTheResetValues : Obligations.ResetLeavesTheResetValues := by
  refine ⟨?_, fun s => ?_⟩
  · rintro s (rfl | ⟨c, rfl⟩)
    all_goals exact ⟨rfl, rfl, rfl, rfl, scalarReads_eq_zero rfl rfl rfl rfl⟩
  · exact ⟨s.clear, rfl, rfl, rfl, rfl, rfl, rfl, fun n => exec_commandInstr n s.clear,
      scalarReads_eq_zero rfl rfl rfl rfl⟩

/-- Settles O35. -/
theorem statusRegisterShowsTheFlags : Obligations.StatusRegisterShowsTheFlags :=
  ⟨fun s idx => ⟨s.statusWord, rd_status s idx, statusWord_bits s⟩,
    fun c idx => (scalarReads_eq_zero (s := State.initial c) rfl rfl rfl rfl idx).1⟩

/-- Settles O36. -/
theorem accLenReadsTheLength : Obligations.AccLenReadsTheLength := by
  refine ⟨fun s idx hle => ?_, fun s idx hgt => ?_, fun c idx => ?_⟩
  · exact ⟨_, by rw [rd_accLen, accLen_of_le hle], toNat_ofNat_length hle⟩
  · rw [rd_accLen, accLen_of_gt hgt]
  · exact (scalarReads_eq_zero (s := State.initial c) rfl rfl rfl rfl idx).2.1

/-- The legal builds have no bound, or one from 34 to 65535 (00_scope R8). -/
theorem legal_iff (c : Config) : c.legal = true ↔ ∀ cap, c.accCap = some cap → 34 ≤ cap ∧ cap ≤ 65535 := by
  unfold Config.legal
  cases c.accCap <;> simp

/-- A bounded build that meets the invariant holds no frame longer than 65535 bytes. -/
theorem frameLength_le_of_inv {s : State} {F : List Byte} {cap : Nat} (hinv : s.inv = true)
    (hcap : s.cfg.accCap = some cap) (hslot : s.slot = some F) : F.length ≤ 65535 := by
  obtain ⟨hlegal, -, hok, -⟩ := (inv_iff s).1 hinv
  have hF : F.length ≤ cap := (holdsBytes_iff _ _).1 ((slotOk_iff s).1 hok F hslot).2 cap hcap
  exact hF.trans ((legal_iff _).1 hlegal cap hcap).2

/-- Settles O37. -/
theorem outLenReadsTheFrameLength : Obligations.OutLenReadsTheFrameLength := by
  refine fun s idx => ⟨fun hslot => ?_, fun F hslot hle => ?_, fun F c => frameLength_le_of_inv⟩
  · rw [rd_outLen, outLen_of_empty hslot]
  · exact ⟨_, by rw [rd_outLen, outLen_of_le hslot hle], toNat_ofNat_length hle⟩

/-! ### Where a read has a value -/

theorem outByte_isSome_iff (s : State) (i : Nat) :
    (s.outByte i).isSome = true ↔ ∃ F, s.slot = some F ∧ i < F.length := by
  cases hs : s.slot <;> simp [State.outByte, hs]

/-- A cell result holds as many cells as its count says (41_payload_extractor R136). -/
theorem decCell_length {F : List Byte} {n : Nat} {cells : List Int} (h : decCell F = .cell n cells) :
    cells.length = n := by
  unfold decCell at h
  split at h
  · cases h
  · split_ifs at h
    cases h
    exact List.length_ofFn

/-- Only the arm DEC.CELL gives a cell result (41_payload_extractor R131). -/
theorem extract_cell_length {F : List Byte} {n : Nat} {cells : List Int}
    (h : extract F = some (.cell n cells)) : cells.length = n := by
  obtain ⟨cmd, -, harm⟩ := Option.bind_eq_some_iff.1 h
  unfold decodeCommand at harm
  split_ifs at harm
  · have hb : decBatt F = .cell n cells := by simpa [armResult] using harm
    unfold decBatt at hb
    split at hb <;> cases hb
  · exact decCell_length (by simpa [armResult] using harm)
  · simp [armResult, decInfo] at harm
  · simp [armResult, decUnsupported] at harm

theorem cell_isSome_iff (s : State) (i : Nat) :
    (s.cell i).isSome = true ↔ ∃ n cells, s.result = some (.cell n cells) ∧ i < n := by
  unfold State.cell
  split
  case h_1 n cells hr =>
    obtain ⟨F, -, hx⟩ := Option.bind_eq_some_iff.1 hr
    have hlen : cells.length = n := extract_cell_length hx
    simp [hr, hlen]
  case h_2 hno =>
    simpa using fun n cells hr => absurd hr (hno n cells)

/-- A frame of the slot is long enough to show its command byte and its count (40_frame_decoder R100). -/
theorem header_of_closes {F : List Byte} (h : closes F = true) :
    (∃ cmd, F[1]? = some cmd) ∧ ∃ raw, countRaw F = some raw := by
  obtain ⟨hlen, -, -⟩ := (closes_iff F).1 h
  match F, hlen with
  | _ :: cmd :: hi :: lo :: _, _ => exact ⟨⟨cmd, rfl⟩, s16 hi lo, rfl⟩

/-- The field table of 10_state R38, kind by kind: a field holds a value exactly for the kinds it belongs to. -/
theorem fieldOf_isSome {F : List Byte} (hF : closes F = true) (r : Result) {idx : Nat} (hidx : idx < 14) :
    (fieldOf F r idx).isSome = fieldBelongs r idx := by
  obtain ⟨⟨cmd, hcmd⟩, raw, hraw⟩ := header_of_closes hF
  cases r with
  | battery b => interval_cases idx <;> simp [fieldOf, fieldBelongs, hcmd]
  | cell n cells => interval_cases idx <;> simp [fieldOf, fieldBelongs, hcmd, hraw]
  | info name => interval_cases idx <;> simp [fieldOf, fieldBelongs, hcmd]
  | truncated c =>
    obtain rfl | hc := eq_or_ne c 0x04
    · interval_cases idx <;> simp [fieldOf, fieldBelongs, hcmd, hraw]
    · interval_cases idx <;> simp_all [fieldOf, fieldBelongs]
  | unsupported c => interval_cases idx <;> simp [fieldOf, fieldBelongs, hcmd]
  | badCount c n => interval_cases idx <;> simp [fieldOf, fieldBelongs, hcmd, hraw]

/-- The FIELD indices from 14 on are reserved. -/
theorem field_reserved (s : State) {idx : Nat} (h : 14 ≤ idx) : s.field idx = some 0 :=
  if_pos h

theorem field_isSome_iff {s : State} (hok : s.slotOk = true) {idx : Nat} (hidx : idx < 14) :
    (s.field idx).isSome = true ↔ ∃ r, s.result = some r ∧ fieldBelongs r idx = true := by
  unfold State.field State.result
  rw [if_neg (by omega)]
  cases hs : s.slot with
  | none => simp
  | some F =>
    have hF : closes F = true := ((slotOk_iff s).1 hok F hs).1
    cases hx : extract F with
    | none => simp [hx]
    | some r => simp [hx, fieldOf_isSome hF r hidx]

theorem readIsValid_outByte (s : State) (idx : BitVec 16) :
    readIsValid s 4 idx ↔ ∃ F, s.slot = some F ∧ idx.toNat < F.length := by
  simp [readIsValid]

theorem readIsValid_field (s : State) (idx : BitVec 16) :
    readIsValid s 5 idx ↔ (idx.toNat < 14 → ∃ r, s.result = some r ∧ fieldBelongs r idx.toNat = true) := by
  simp [readIsValid]

theorem readIsValid_cell (s : State) (idx : BitVec 16) :
    readIsValid s 6 idx ↔ ∃ n cells, s.result = some (.cell n cells) ∧ idx.toNat < n := by
  simp [readIsValid]

/-- With a RawFrame or nothing in the slot, a read has a value exactly where it is valid (10_state R37 to R39). -/
theorem rd_isSome_iff {s : State} (hok : s.slotOk = true) (sel : BitVec 4) (idx : BitVec 16) :
    (rd s sel idx).isSome = true ↔ readIsValid s sel idx := by
  obtain rfl | h4 := eq_or_ne sel 4
  · rw [rd_outByte, Option.isSome_map, outByte_isSome_iff, readIsValid_outByte]
  obtain rfl | h5 := eq_or_ne sel 5
  · rw [rd_field, Option.isSome_map, readIsValid_field]
    obtain hlt | hge := Nat.lt_or_ge idx.toNat 14
    · rw [field_isSome_iff hok hlt, forall_prop_of_true hlt]
    · exact iff_of_true (by rw [field_reserved s hge]; rfl) fun hlt => absurd hlt (by omega)
  obtain rfl | h6 := eq_or_ne sel 6
  · rw [rd_cell, Option.isSome_map, cell_isSome_iff, readIsValid_cell]
  · exact iff_of_true (rd_isSome_of_ne s idx h4 h5 h6)
      ⟨fun h => absurd h h4, fun h => absurd h h5, fun h => absurd h h6⟩

/-- A read turn without a value shows none and records the reader's fault (10_state R39). -/
theorem step_read_none {s : State} {sel : BitVec 4} {idx : BitVec 16} {ts : List Turn}
    (hsch : s.schedule = .consumer (.read sel idx) :: ts) (hnone : rd s sel idx = none) :
    step s = .next { s with schedule := ts, observed := s.observed ++ [.read sel idx none],
                            faults := s.faults ++ [.readWithoutValue] } := by
  have hrd : rd (s.withSchedule ts) sel idx = none := hnone
  rw [step_cons hsch, takeTurn, consumerTurn, performRead_eq, hrd]
  rfl

/-- Settles O39. -/
theorem readsHaveAValueExactlyWhereValid : Obligations.ReadsHaveAValueExactlyWhereValid := by
  refine ⟨fun s sel idx hok => rd_isSome_iff hok sel idx, fun s F i b hslot hbyte => ?_,
    fun s sel idx hsel => rd_reserved s idx hsel, fun s idx hidx => ?_, fun s sel idx ts => step_read_none⟩
  · rw [rd_outByte]
    simp [State.outByte, hslot, hbyte, zext16]
  · rw [rd_field, field_reserved s hidx]
    rfl

/-! ### Which words are CLR and which are illegal -/

/-- A word is its opcode and its operand (30_encoding R70). -/
theorem opWord_fields (w : OpWord) : opWord (opField w) (operandField w) = w := by
  unfold opWord opField operandField
  rw [BitVec.extractLsb'_append_extractLsb'_eq_extractLsb' (by rfl)]
  simp

theorem toNat_eq_fields (w : OpWord) : w.toNat = (opField w).toNat * 256 + (operandField w).toNat := by
  simp only [opField, operandField, BitVec.extractLsb'_toNat, Nat.shiftRight_eq_div_pow]
  omega

theorem operandField_eq_zero_iff (w : OpWord) : operandField w = 0 ↔ (operandField w).toNat = 0 :=
  BitVec.toNat_inj.symm

/-- The codes from 7 on name no command (30_encoding R74). -/
theorem le_of_commandOfOperand_none {b : Byte} (h : commandOfOperand b = none) : 7 ≤ b.toNat := by
  by_contra hlt
  unfold commandOfOperand at h
  generalize b.toNat = n at h hlt
  interval_cases n <;> cases h

/-- The illegal words of 30_encoding R76 by their fields: a nonzero operand where it must be zero, an ENC code that
names no command, or an opcode without a row. -/
theorem isIllegalWord_iff_fields (w : OpWord) :
    isIllegalWord w = true ↔
      (((opField w).toNat = 0 ∨ (opField w).toNat = 2 ∨ (opField w).toNat = 15) ∧ operandField w ≠ 0) ∨
      ((opField w).toNat = 3 ∧ 7 ≤ (operandField w).toNat) ∨
      (4 ≤ (opField w).toNat ∧ (opField w).toNat ≤ 14) := by
  have hw := toNat_eq_fields w
  have hop : (opField w).toNat < 16 := (opField w).isLt
  have hoperand : (operandField w).toNat < 256 := (operandField w).isLt
  simp only [isIllegalWord, Bool.or_eq_true, Bool.and_eq_true, decide_eq_true_eq, ne_eq, operandField_eq_zero_iff, hw]
  omega

/-- Everything the decoder can read from a word, with the fields of the word (30_encoding R71, R74 to R76). -/
theorem decodeWord_cases (w : OpWord) :
    ((opField w).toNat = 0x0 ∧ operandField w = 0 ∧ decodeWord w = .nop) ∨
    ((opField w).toNat = 0x1 ∧ decodeWord w = .push (operandField w)) ∨
    ((opField w).toNat = 0x2 ∧ operandField w = 0 ∧ decodeWord w = .eoc) ∨
    ((opField w).toNat = 0x3 ∧ ∃ n, commandOfOperand (operandField w) = some n ∧ decodeWord w = n.instr) ∨
    ((opField w).toNat = 0xF ∧ operandField w = 0 ∧ decodeWord w = .clr) ∨
    (isIllegalWord w = true ∧ decodeWord w = .illegal w) := by
  rw [isIllegalWord_iff_fields]
  have hlt : (opField w).toNat < 16 := (opField w).isLt
  unfold decodeWord
  split
  case h_1 hop => by_cases h0 : operandField w = 0#8 <;> simp [hop, h0]
  case h_2 hop => simp [hop]
  case h_3 hop => by_cases h0 : operandField w = 0#8 <;> simp [hop, h0]
  case h_4 hop =>
    cases hn : commandOfOperand (operandField w) with
    | some n => simp [hop]
    | none => simp [hop, le_of_commandOfOperand_none hn]
  case h_5 hop => by_cases h0 : operandField w = 0#8 <;> simp [hop, h0]
  case h_6 h0 h1 h2 h3 hF =>
    have hhigh : 4 ≤ (opField w).toNat ∧ (opField w).toNat ≤ 14 := by
      rw [imp_false] at h0 h1 h2 h3 hF
      omega
    simp [hhigh]

theorem commandInstr_ne_clr (n : CommandName) : n.instr ≠ .clr := by
  cases n <;> exact Instr.noConfusion

theorem commandInstr_ne_illegal (n : CommandName) (v : OpWord) : n.instr ≠ .illegal v := by
  cases n <;> exact Instr.noConfusion

/-- CLR has one word, the one with operand 0 (30_encoding R71, R75). -/
theorem eq_clrWord_of_decodeWord {w : OpWord} (h : decodeWord w = .clr) : w = clrWord := by
  obtain ⟨-, -, hd⟩ | ⟨-, hd⟩ | ⟨-, -, hd⟩ | ⟨-, n, -, hd⟩ | ⟨hop, hoperand, -⟩ | ⟨-, hd⟩ := decodeWord_cases w
  case inr.inr.inr.inl => exact absurd (hd.symm.trans h) (commandInstr_ne_clr n)
  case inr.inr.inr.inr.inl =>
    rw [← opWord_fields w, hoperand, BitVec.eq_of_toNat_eq (y := 0xF) hop, clrWord]
  all_goals cases hd.symm.trans h

/-- Every word that decodes to ILLEGAL is in the list of 30_encoding R76. -/
theorem isIllegalWord_of_decodeWord {w v : OpWord} (h : decodeWord w = .illegal v) : isIllegalWord w = true := by
  obtain ⟨-, -, hd⟩ | ⟨-, hd⟩ | ⟨-, -, hd⟩ | ⟨-, n, -, hd⟩ | ⟨-, -, hd⟩ | ⟨hill, -⟩ := decodeWord_cases w
  case inr.inr.inr.inl => exact absurd (hd.symm.trans h) (commandInstr_ne_illegal n v)
  case inr.inr.inr.inr.inr => exact hill
  all_goals cases hd.symm.trans h

/-! ### Who writes ACC, OVF and ILL -/

/-- Of the operations, PUSH, EOC and CLR alone write ACC (10_state R24). -/
theorem exec_changes_acc {i : Instr} {s t : State} (h : exec i s = .next t) (hne : t.acc ≠ s.acc) :
    (∃ b, i = .push b) ∨ i = .eoc ∨ i = .clr := by
  obtain rfl | ⟨b, -, -, -, rfl⟩ | ⟨b, rfl, -⟩ | ⟨rfl, -⟩ | ⟨rfl, -⟩ | ⟨w, -, rfl⟩ | ⟨n, -, rfl⟩ | ⟨-, rfl⟩ |
    ⟨F, r, -, -, -, rfl⟩ := exec_cases h
  case inr.inr.inl => exact .inl ⟨b, rfl⟩
  case inr.inr.inr.inl => exact .inr (.inl rfl)
  case inr.inr.inr.inr.inl => exact .inr (.inr rfl)
  all_goals exact absurd rfl hne

/-- Of the operations, a PUSH whose guard fires alone sets OVF (40_frame_decoder R106). -/
theorem exec_sets_ovf {i : Instr} {s t : State} (h : exec i s = .next t) (hs : s.ovf = false) (ht : t.ovf = true) :
    s.accFull = true ∧ ∃ b, i = .push b := by
  obtain rfl | ⟨b, rfl, -, hfull, -⟩ | ⟨b, -, -, -, rfl⟩ | ⟨-, -, -, -, rfl⟩ | ⟨-, rfl⟩ | ⟨w, -, rfl⟩ | ⟨n, -, rfl⟩ |
    ⟨-, rfl⟩ | ⟨F, r, -, -, -, rfl⟩ := exec_cases h
  case inr.inl => exact ⟨hfull, b, rfl⟩
  all_goals simp [hs] at ht

/-- Of the operations, an illegal word alone sets ILL (40_frame_decoder R105). -/
theorem exec_sets_ill {i : Instr} {s t : State} (h : exec i s = .next t) (hs : s.ill = false) (ht : t.ill = true) :
    ∃ w, i = .illegal w := by
  obtain rfl | ⟨b, -, -, -, rfl⟩ | ⟨b, -, -, -, rfl⟩ | ⟨-, -, -, -, rfl⟩ | ⟨-, rfl⟩ | ⟨w, rfl, -⟩ | ⟨n, -, rfl⟩ |
    ⟨-, rfl⟩ | ⟨F, r, -, -, -, rfl⟩ := exec_cases h
  case inr.inr.inr.inr.inr.inl => exact ⟨w, rfl⟩
  all_goals simp [hs] at ht

/-- Of the operations, CLR alone clears a flag (40_frame_decoder R104). -/
theorem exec_clears_flag {i : Instr} {s t : State} (h : exec i s = .next t)
    (hclear : (s.ovf = true ∧ t.ovf = false) ∨ (s.ill = true ∧ t.ill = false)) : i = .clr := by
  obtain rfl | ⟨b, -, -, -, rfl⟩ | ⟨b, -, -, -, rfl⟩ | ⟨-, -, -, -, rfl⟩ | ⟨rfl, -⟩ | ⟨w, -, rfl⟩ | ⟨n, -, rfl⟩ |
    ⟨-, rfl⟩ | ⟨F, r, -, -, -, rfl⟩ := exec_cases h
  case inr.inr.inr.inr.inl => rfl
  all_goals simp at hclear

/-- What a step does to ACC, OVF and ILL: nothing, a reset, or `exec` of the word the producer had offered, from a
state with the same build, ACC and flags. -/
theorem step_decoder_cases {s t : State} (h : step s = .next t) :
    (t.acc = s.acc ∧ t.ovf = s.ovf ∧ t.ill = s.ill) ∨
    (s.schedule.head? = some .reset ∧ t.ovf = false ∧ t.ill = false) ∨
    (s.schedule.head? = some .producer ∧ ∃ w ws ts, s.input = w :: ws ∧
      exec (decodeWord w) ((s.withSchedule ts).withInput ws) = .next t) := by
  obtain ⟨ws, ts, ⟨-, rfl⟩ | ⟨-, -, o, new, -, rfl⟩ | ⟨-, -, rfl⟩ | ⟨-, hhead, rfl⟩ | ⟨hhead, w, hin, -, hexec⟩⟩ :=
    step_effect h
  · exact .inl ⟨rfl, rfl, rfl⟩
  · exact .inl ⟨rfl, rfl, rfl⟩
  · exact .inl ⟨rfl, rfl, rfl⟩
  · exact .inr (.inl ⟨hhead, rfl, rfl⟩)
  · exact .inr (.inr ⟨hhead, w, ws, ts, hin, hexec⟩)

/-- Settles O11: the ports leave ACC alone, so only the reset and the operations that write it can change it. -/
theorem accIsWrittenOnlyByItsOperations : Obligations.AccIsWrittenOnlyByItsOperations := by
  intro s t h hne
  obtain ⟨hacc, -, -⟩ | ⟨hreset, -, -⟩ | ⟨hprod, w, ws, ts, hin, hexec⟩ := step_decoder_cases h
  · exact absurd hacc hne
  · exact .inl hreset
  · exact .inr ⟨hprod, w, ws, hin, exec_changes_acc hexec hne⟩

/-- Settles O48: the ports leave the flags alone, the reset clears them, and each operation's own causes remain. -/
theorem flagsAreSticky : Obligations.FlagsAreSticky := by
  intro s t h
  obtain ⟨-, hovf, hill⟩ | ⟨hreset, hovf, hill⟩ | ⟨hprod, w, ws, ts, hin, hexec⟩ := step_decoder_cases h
  · simp +contextual [hovf, hill]
  · simp [hreset, hovf, hill]
  · refine ⟨fun hs ht => ?_, fun hs ht => ?_, fun hclear => .inr ⟨hprod, ws, ?_⟩⟩
    · obtain ⟨hfull, b, hb⟩ := exec_sets_ovf hexec hs ht
      exact ⟨hfull, hprod, w, ws, b, hin, hb⟩
    · obtain ⟨v, hv⟩ := exec_sets_ill hexec hs ht
      exact ⟨hprod, w, ws, hin, isIllegalWord_of_decodeWord hv⟩
    · rw [hin, eq_clrWord_of_decodeWord (exec_clears_flag hexec hclear)]

/-! ### Reset -/

/-- A legal build right after reset meets the invariant. -/
theorem inv_initial {c : Config} (h : c.legal = true) : (State.initial c).inv = true :=
  (inv_iff _).2 ⟨h, by simp [holdsBytes_iff, State.initial], rfl, by simp [State.initial]⟩

/-- Settles O51. -/
theorem resetMeetsTheInvariant : Obligations.ResetMeetsTheInvariant :=
  ⟨inv_initial rfl, ⟨[], rfl⟩, ⟨nofun, nofun⟩, fun _ => inv_initial⟩

end Sys2Proof.Machine
end

section
/-!
PROOFS. The statements of 20_memory: what TX is lengthened by, the read port, the order of the input port, and an EOC
against a POP.
-/

namespace Sys2Proof.Machine

/-! ### TX -/

/-- Of the operations, an ENC alone writes TX, and it sends its whole sequence (42_command_table R170). -/
theorem exec_extends_tx {i : Instr} {s t : State} (h : exec i s = .next t) :
    ∃ sent, t.tx = s.tx ++ sent ∧ (sent = [] ∨ ∃ n, sent = cmdRom n) := by
  obtain rfl | ⟨b, -, -, -, rfl⟩ | ⟨b, -, -, -, rfl⟩ | ⟨-, -, -, -, rfl⟩ | ⟨-, rfl⟩ | ⟨w, -, rfl⟩ | ⟨n, -, rfl⟩ |
    ⟨-, rfl⟩ | ⟨F, r, -, -, -, rfl⟩ := exec_cases h
  case inr.inr.inr.inr.inr.inr.inl => exact ⟨cmdRom n, rfl, .inr ⟨n, rfl⟩⟩
  all_goals exact ⟨[], by simp, .inl rfl⟩

/-- The ports and the turns of the other agents leave TX alone. -/
theorem step_extends_tx {s t : State} (h : step s = .next t) :
    ∃ sent, t.tx = s.tx ++ sent ∧ (sent = [] ∨ ∃ n, sent = cmdRom n) := by
  obtain ⟨ws, ts, ⟨-, rfl⟩ | ⟨-, -, o, new, -, rfl⟩ | ⟨-, -, rfl⟩ | ⟨-, -, rfl⟩ | ⟨-, w, -, -, hexec⟩⟩ := step_effect h
  case inr.inr.inr.inr => exact exec_extends_tx (s := (s.withSchedule ts).withInput ws) hexec
  all_goals exact ⟨[], by simp, .inl rfl⟩

/-- Nothing or one more sequence behind whole sequences makes whole sequences. -/
theorem txWhole_of_extends {s t : State} {sent : List Byte} (hs : s.txWhole) (htx : t.tx = s.tx ++ sent)
    (hsent : sent = [] ∨ ∃ n, sent = cmdRom n) : t.txWhole := by
  obtain ⟨names, hnames⟩ := hs
  obtain rfl | ⟨n, rfl⟩ := hsent
  · exact ⟨names, by simp [htx, hnames]⟩
  · exact ⟨names ++ [n], by simp [htx, hnames]⟩

/-- Settles O22. -/
theorem txHoldsWholeSequences : Obligations.TxHoldsWholeSequences := by
  intro s t h
  obtain ⟨sent, htx, hsent⟩ := step_extends_tx h
  exact ⟨⟨sent, htx, hsent⟩, fun hs => txWhole_of_extends hs htx hsent⟩

/-! ### The read port -/

/-- The read map speaks of ACC, the slot and the flags alone (10_state R37). -/
theorem rd_congr {s t : State} (hacc : t.acc = s.acc) (hslot : t.slot = s.slot) (hovf : t.ovf = s.ovf)
    (hill : t.ill = s.ill) (sel : BitVec 4) (idx : BitVec 16) : rd t sel idx = rd s sel idx := by
  simp only [rd, State.statusWord, State.outValid, State.accLen, State.outLen, State.outByte, State.field, State.cell,
    State.result, hacc, hslot, hovf, hill]

/-- A consumer turn that reads. -/
theorem step_read {s : State} {sel : BitVec 4} {idx : BitVec 16} {ts : List Turn}
    (hsch : s.schedule = .consumer (.read sel idx) :: ts) :
    step s = .next ((s.withSchedule ts).performRead sel idx) := by
  rw [step_cons hsch, takeTurn, consumerTurn]

/-- Settles O40: a read turn writes the two traces and the schedule, and the read map speaks of none of them. -/
theorem readsHaveNoSideEffect : Obligations.ReadsHaveNoSideEffect := by
  refine ⟨fun s sel idx v ts hsch hv => ?_, fun s t sel idx ts hsch h => ?_⟩
  · have hrd : rd (s.withSchedule ts) sel idx = some v := hv
    rw [step_read hsch, performRead_eq, hrd]
    simp [State.withSchedule]
  · rw [step_read hsch, performRead_eq] at h
    cases h
    exact ⟨rfl, rfl, rfl, rfl, rfl, rfl, rd_congr rfl rfl rfl rfl⟩

/-! ### The input port -/

/-- No operation touches the words behind it on the port. -/
theorem exec_keeps_input {i : Instr} {s t : State} (h : exec i s = .next t) : t.input = s.input := by
  obtain rfl | ⟨b, -, -, -, rfl⟩ | ⟨b, -, -, -, rfl⟩ | ⟨-, -, -, -, rfl⟩ | ⟨-, rfl⟩ | ⟨w, -, rfl⟩ | ⟨n, -, rfl⟩ |
    ⟨-, rfl⟩ | ⟨F, r, -, -, -, rfl⟩ := exec_cases h
  all_goals rfl

/-- A producer turn with a held word leaves the block as it is (30_encoding R72). -/
theorem step_holds {s : State} {w : OpWord} {ws : List OpWord} {ts : List Turn} (hin : s.input = w :: ws)
    (hsch : s.schedule = .producer :: ts) (hheld : holds (decodeWord w) s = true) :
    step s = .next (s.withSchedule ts) := by
  have hheld' : holds (decodeWord w) (s.withSchedule ts) = true := hheld
  rw [step_cons hsch, takeTurn, producerTurn_cons (s := s.withSchedule ts) hin, if_pos hheld']

/-- A step leaves the offered words, or takes the first one in a producer turn that does not hold it. -/
theorem step_input {s t : State} (h : step s = .next t) : t.input = s.input ∨
    ∃ w, s.input = w :: t.input ∧ s.schedule.head? = some .producer ∧ holds (decodeWord w) s = false := by
  obtain ⟨ws, ts, ⟨rfl, rfl⟩ | ⟨rfl, -, o, new, -, rfl⟩ | ⟨rfl, -, rfl⟩ | ⟨rfl, -, rfl⟩ |
    ⟨hhead, w, hin, hheld, hexec⟩⟩ := step_effect h
  case inr.inr.inr.inr =>
    have hrest : t.input = ws := exec_keeps_input hexec
    exact .inr ⟨w, by rw [hin, hrest], hhead, hheld⟩
  all_goals exact .inl rfl

/-- Settles O43. -/
theorem inputPortKeepsItsOrder : Obligations.InputPortKeepsItsOrder := by
  refine ⟨fun s t => step_input, fun s t w ws ts hsch hin h => ⟨fun hheld => ?_, fun hheld => ?_⟩,
    fun w s hheld => ((holds_iff _ s).1 hheld).1⟩
  · rw [step_accepts hin hsch hheld] at h
    exact exec_keeps_input h
  · rw [step_holds hin hsch hheld] at h
    cases h
    exact hin

/-! ### An EOC against a POP -/

/-- A POP, then the producer's turn with an EOC offered: a `Feed` of no further byte, whatever the slot held
(40_frame_decoder R103, 41_payload_extractor R146). -/
theorem run_pop_eoc {s : State} {ws : List OpWord} {ts : List Turn} (hin : s.input = eocWord :: ws)
    (hovf : s.ovf = false) (hsch : s.schedule = .consumer .pop :: .producer :: ts) :
    Host.Core.run core 2 s =
      .next { s with acc := (feed s.acc []).1, slot := (feed s.acc []).2.head?, input := ws, schedule := ts } := by
  have hpop : step s = .next (s.withSchedule (.producer :: ts)).emptySlot := step_cons hsch
  refine (run_step hpop).trans ?_
  exact run_step (step_eocWord (s := (s.withSchedule (.producer :: ts)).emptySlot) hovf rfl hin rfl)

/-- Settles O44: the full slot holds the EOC at the producer's first turn, so both orders are a POP and then the
EOC. -/
theorem eocAndPopInterleaveHarmlessly : Obligations.EocAndPopInterleaveHarmlessly := by
  intro s ws ts F hin hovf hslot
  have hheld : holds (decodeWord eocWord) s = true := by
    rw [decodeWord_eocWord, holds_iff]
    exact ⟨rfl, hovf, by rw [hslot]; rfl⟩
  have hpop : Host.Core.run core 2 (s.withSchedule (.consumer .pop :: .producer :: ts)) =
      .next { s with acc := (feed s.acc []).1, slot := (feed s.acc []).2.head?, input := ws, schedule := ts } :=
    run_pop_eoc hin hovf rfl
  have hwait : step (s.withSchedule (.producer :: .consumer .pop :: .producer :: ts)) =
      .next (s.withSchedule (.consumer .pop :: .producer :: ts)) :=
    step_holds hin rfl hheld
  refine ⟨_, (run_step hwait).trans hpop, hpop, rfl, fun hcloses => ?_, fun hopen => ?_⟩
  · simp [feed, hcloses]
  · simp [feed, hopen]

end Sys2Proof.Machine
end

section
/-!
PROOFS. The statements of 30_encoding: decoder and encoder are inverse to each other, the decoder is the opcode table
read in order, the illegal words, the assembler, the shape of the command sequences, and the step on the decoded
operation.
-/

namespace Sys2Proof.Machine

/-! ### The patterns of the input-port words -/

/-- A word with the fields `op` and `operand` is the word made of them (30_encoding R70). -/
theorem eq_opWord {w : OpWord} {op : BitVec 4} {operand : Byte} (hop : (opField w).toNat = op.toNat)
    (hoperand : operandField w = operand) : w = opWord op operand := by
  rw [← opWord_fields w, BitVec.eq_of_toNat_eq hop, hoperand]

@[simp] theorem opField_opWord (op : BitVec 4) (operand : Byte) : opField (opWord op operand) = op :=
  BitVec.extractLsb'_append_eq_left

@[simp] theorem operandField_opWord (op : BitVec 4) (operand : Byte) : operandField (opWord op operand) = operand :=
  BitVec.extractLsb'_append_eq_right

/-- The codes of the names, read back (30_encoding R91). -/
theorem commandOfOperand_code (n : CommandName) : commandOfOperand n.code = some n := by
  cases n <;> rfl

/-- An operand that selects a name is the name's code (30_encoding R74). -/
theorem eq_code_of_commandOfOperand {b : Byte} {n : CommandName} (h : commandOfOperand b = some n) : b = n.code := by
  apply BitVec.eq_of_toNat_eq
  unfold commandOfOperand at h
  split at h <;> cases h <;> assumption

/-- Every operation word fits one of the patterns of 30_encoding R71, or it is in the list of R76. -/
theorem opWord_pattern_cases (w : OpWord) :
    w = opWord 0x0 0x00 ∨ (∃ b, w = pushWord b) ∨ w = eocWord ∨ (∃ n, w = encWord n) ∨ w = clrWord ∨
      isIllegalWord w = true := by
  obtain ⟨hop, h0, -⟩ | ⟨hop, -⟩ | ⟨hop, h0, -⟩ | ⟨hop, n, hn, -⟩ | ⟨hop, h0, -⟩ | ⟨hill, -⟩ := decodeWord_cases w
  · exact .inl (eq_opWord hop h0)
  · exact .inr (.inl ⟨_, eq_opWord hop rfl⟩)
  · exact .inr (.inr (.inl (eq_opWord hop h0)))
  · exact .inr (.inr (.inr (.inl ⟨n, eq_opWord hop (eq_code_of_commandOfOperand hn)⟩)))
  · exact .inr (.inr (.inr (.inr (.inl (eq_opWord hop h0)))))
  · exact .inr (.inr (.inr (.inr (.inr hill))))

/-! ### What each pattern decodes to -/

theorem decodeWord_nopWord : decodeWord (opWord 0x0 0x00) = .nop := by decide

@[simp] theorem decodeWord_clrWord : decodeWord clrWord = .clr := by decide

@[simp] theorem decodeWord_encWord (n : CommandName) : decodeWord (encWord n) = n.instr := by
  simp [decodeWord, encWord, commandOfOperand_code]

/-- A word in the list of 30_encoding R76 fits none of the patterns with a meaning. -/
theorem decodeWord_of_isIllegalWord {w : OpWord} (h : isIllegalWord w = true) : decodeWord w = .illegal w := by
  rw [isIllegalWord_iff_fields] at h
  obtain ⟨hop, h0, -⟩ | ⟨hop, -⟩ | ⟨hop, h0, -⟩ | ⟨hop, n, hn, -⟩ | ⟨hop, h0, -⟩ | ⟨-, hd⟩ := decodeWord_cases w
  case inr.inr.inr.inl =>
    have hcode : n.code.toNat < 7 := by cases n <;> decide
    rw [eq_code_of_commandOfOperand hn] at h
    omega
  case inr.inr.inr.inr.inr => exact hd
  all_goals simp_all

/-- The illegal words are those of the list of 30_encoding R76. -/
theorem decodeWord_eq_illegal_iff (w v : OpWord) : decodeWord w = .illegal v ↔ isIllegalWord w = true ∧ v = w := by
  constructor
  · intro h
    have hill := isIllegalWord_of_decodeWord h
    rw [decodeWord_of_isIllegalWord hill] at h
    cases h
    exact ⟨hill, rfl⟩
  · rintro ⟨hill, rfl⟩
    exact decodeWord_of_isIllegalWord hill

/-! ### What a command byte decodes to -/

/-- A command byte has an arm of its own, or it is unsupported (30_encoding R80). -/
theorem command_cases (c : Byte) : c = 0x03 ∨ c = 0x04 ∨ c = 0x05 ∨ isSupportedCommand c = false := by
  by_cases h : isSupportedCommand c = true
  · simp only [isSupportedCommand, Bool.or_eq_true, beq_iff_eq] at h
    tauto
  · simp [h]

theorem decodeCommand_of_unsupported {c : Byte} (h : isSupportedCommand c = false) :
    decodeCommand c = .decUnsupported c := by
  simp only [isSupportedCommand, Bool.or_eq_false_iff, beq_eq_false_iff_ne] at h
  obtain ⟨⟨h3, h4⟩, h5⟩ := h
  simp only [decodeCommand, if_neg h3, if_neg h4, if_neg h5]

/-! ### Decoder and encoder -/

/-- The word of ENC n is the one its operation is encoded as (42_command_table R171 to R177). -/
@[simp] theorem encode_commandInstr (n : CommandName) : encode n.instr = .word (encWord n) := by
  cases n <;> rfl

theorem wellFormed_commandInstr (n : CommandName) : n.instr.wellFormed = true := by
  cases n <;> rfl

/-- The operation an ENC row names decodes back from its word. -/
theorem decode_encode_commandInstr (n : CommandName) : decode (encode n.instr) = n.instr := by
  rw [encode_commandInstr]
  exact decodeWord_encWord n

/-- Settles O54, one constructor at a time: the operands of PUSH, ILLEGAL and DEC.UNSUPPORTED are arbitrary. -/
theorem decodeOfEncodeIsTheInstruction : Obligations.DecodeOfEncodeIsTheInstruction := by
  intro i hwf
  cases i with
  | nop => exact decodeWord_nopWord
  | push b => exact decodeWord_pushWord b
  | eoc => exact decodeWord_eocWord
  | encDischargeOn => exact decode_encode_commandInstr .dischargeOn
  | encDischargeOff => exact decode_encode_commandInstr .dischargeOff
  | encChargeOn => exact decode_encode_commandInstr .chargeOn
  | encChargeOff => exact decode_encode_commandInstr .chargeOff
  | encRequestRead => exact decode_encode_commandInstr .requestRead
  | encRequestCellVoltage => exact decode_encode_commandInstr .requestCellVoltage
  | encRequestInfo => exact decode_encode_commandInstr .requestInfo
  | clr => exact decodeWord_clrWord
  | illegal w => exact decodeWord_of_isIllegalWord hwf
  | pop => rfl
  | decBatt => rfl
  | decCell => rfl
  | decInfo => rfl
  | decUnsupported c => exact decodeCommand_of_unsupported (by simpa [Instr.wellFormed] using hwf)

/-- An operation word is what its operation is encoded as. -/
theorem encode_decodeWord (w : OpWord) : encode (decodeWord w) = .word w ∧ (decodeWord w).wellFormed = true := by
  obtain rfl | ⟨b, rfl⟩ | rfl | ⟨n, rfl⟩ | rfl | hill := opWord_pattern_cases w
  · exact ⟨rfl, rfl⟩
  · rw [decodeWord_pushWord]
    exact ⟨rfl, rfl⟩
  · exact ⟨rfl, rfl⟩
  · rw [decodeWord_encWord]
    exact ⟨encode_commandInstr n, wellFormed_commandInstr n⟩
  · exact ⟨rfl, rfl⟩
  · rw [decodeWord_of_isIllegalWord hill]
    exact ⟨rfl, hill⟩

/-- A command byte is what its arm is encoded as. -/
theorem encode_decodeCommand (c : Byte) :
    encode (decodeCommand c) = .command c ∧ (decodeCommand c).wellFormed = true := by
  obtain rfl | rfl | rfl | hc := command_cases c
  · exact ⟨rfl, rfl⟩
  · exact ⟨rfl, rfl⟩
  · exact ⟨rfl, rfl⟩
  · rw [decodeCommand_of_unsupported hc]
    exact ⟨rfl, by simp [Instr.wellFormed, hc]⟩

/-- Settles O55. -/
theorem encodeOfDecodeIsTheEncoding : Obligations.EncodeOfDecodeIsTheEncoding := by
  intro e
  cases e with
  | word w => exact encode_decodeWord w
  | command c => exact encode_decodeCommand c
  | strobe => exact ⟨rfl, rfl⟩

/-! ### The assembler -/

/-- FEED pushes exactly the bytes of its chunk (30_encoding R77). -/
theorem pushedBytes_feedWords (chunk : List Byte) : pushedBytes (feedWords chunk) = chunk := by
  induction chunk with
  | nil => rfl
  | cons b chunk ih =>
    have hcons : pushedBytes (feedWords (b :: chunk)) = b :: pushedBytes (feedWords chunk) := by
      simp [pushedBytes, feedWords]
    rw [hcons, ih]

/-- Settles O58. -/
theorem assembledLinesDecodeToTheirOperations : Obligations.AssembledLinesDecodeToTheirOperations := by
  refine ⟨fun chunk => ?_, fun b => ?_, fun n => ?_, ?_, ?_, ?_, ?_, pushedBytes_feedWords⟩
  · simp [AsmLine.words, feedWords]
  · simp [AsmLine.words]
  · simp [AsmLine.words]
  · rw [AsmLine.words, List.map_singleton, decodeWord_nopWord]
  · simp [AsmLine.words]
  · simp [AsmLine.words]
  · rw [AsmLine.words, List.map_singleton, decodeWord_of_isIllegalWord (by decide)]

/-! ### The illegal words -/

/-- The list of 30_encoding R76, with the opcodes 0x4 to 0xE read off the word. -/
theorem isIllegalWord_iff_ranges (w : OpWord) :
    isIllegalWord w = true ↔
      ((0x4 ≤ w.toNat / 256 ∧ w.toNat / 256 ≤ 0xE) ∨ (0x001 ≤ w.toNat ∧ w.toNat ≤ 0x0FF) ∨
        (0x201 ≤ w.toNat ∧ w.toNat ≤ 0x2FF) ∨ (0xF01 ≤ w.toNat ∧ w.toNat ≤ 0xFFF) ∨
        (0x307 ≤ w.toNat ∧ w.toNat ≤ 0x3FF)) := by
  simp only [isIllegalWord, Bool.or_eq_true, Bool.and_eq_true, decide_eq_true_eq]
  omega

/-- Settles O8. -/
theorem illegalWordsAreExactlyTheListed : Obligations.IllegalWordsAreExactlyTheListed := by
  refine ⟨fun w => ?_, fun w v s h => ?_⟩
  · rw [← isIllegalWord_iff_ranges]
    simp [decodeWord_eq_illegal_iff]
  · obtain ⟨-, rfl⟩ := (decodeWord_eq_illegal_iff w v).1 h
    rw [h]
    exact ⟨rfl, s.raiseIll, rfl, rfl, rfl⟩

/-! ### The command sequences -/

/-- Every sequence is at least 5 bytes from `START` to `END` (30_encoding R84). -/
theorem closes_cmdRom (n : CommandName) : closes (cmdRom n) = true := by
  cases n <;> decide

/-- The last two bytes before `END` are R85's check value. -/
theorem trailer_cmdRom (n : CommandName) : trailer (cmdRom n) = trailerFormula (cmdRom n) := by
  cases n <;> decide

/-- The bytes 1 and 2 of a request, `A5` and its command byte, and of a switch command, `5A E1` (90_conflicts C4). -/
theorem cmdRom_header (n : CommandName) :
    byteAt (cmdRom n) 1 = 0xA5 ∧ byteAt (cmdRom n) 2 ∈ [(3 : Byte), 4, 5] ∨
      byteAt (cmdRom n) 1 = 0x5A ∧ byteAt (cmdRom n) 2 = 0xE1 := by
  cases n <;> decide

/-- A frame whose command byte has no arm of its own is UNSUPPORTED of that byte (41_payload_extractor R139). -/
theorem extract_of_unsupported {F : List Byte} {c : Byte} (hcmd : F[1]? = some c)
    (hc : isSupportedCommand c = false) : extract F = some (.unsupported c) := by
  simp [extract, hcmd, decodeCommand_of_unsupported hc, armResult, decUnsupported]

/-- Byte 1 of a list that closes is there. -/
theorem getElem?_one_of_closes {F : List Byte} (h : closes F = true) : F[1]? = some (byteAt F 1) := by
  obtain ⟨hlen, -, -⟩ := (closes_iff F).1 h
  have h1 : 1 < F.length := by omega
  simp [byteAt, h1]

/-- Fed back from an empty accumulator, a list that closes is emitted (40_frame_decoder R109). -/
theorem feed_nil_of_closes {F : List Byte} (h : closes F = true) : feed [] F = ([], [F]) := by
  simp [feed, h]

/-- Settles O20: no sequence has a command byte with an arm, since byte 1 is `A5` or `5A`. -/
theorem commandSequencesAreFrames : Obligations.CommandSequencesAreFrames := by
  intro n
  have hcloses := closes_cmdRom n
  have hunsupported : isSupportedCommand (byteAt (cmdRom n) 1) = false := by
    obtain ⟨h1, -⟩ | ⟨h1, -⟩ := cmdRom_header n <;> rw [h1] <;> rfl
  exact ⟨hcloses, trailer_cmdRom n, feed_nil_of_closes hcloses,
    extract_of_unsupported (getElem?_one_of_closes hcloses) hunsupported, cmdRom_header n⟩

/-! ### The step on the decoded operation -/

/-- A look runs the arm the command byte selects (41_payload_extractor R131). -/
theorem lookTurn_of_command {s : State} {F : List Byte} {c : Byte} (hslot : s.slot = some F) (hcmd : F[1]? = some c) :
    lookTurn s = exec (decodeCommand c) s := by
  simp [lookTurn, hslot, hcmd]

/-- 16 bits stand for the operation word of that number (30_encoding R78). -/
theorem ofNumber_opWord (w : OpWord) : Encoding.ofNumber 16 w.toNat = .ok (.word w) := by
  have hw : w.toNat < 4096 := w.isLt
  simp [Encoding.ofNumber, hw]

/-- A word placed from outside is offered first, and the producer's turn comes first. -/
theorem withFetchWord_opWord (s : State) (w : OpWord) :
    s.withFetchWord 16 w.toNat = { s with input := w :: s.input, schedule := .producer :: s.schedule } := by
  simp [State.withFetchWord, State.presentNumber, ofNumber_opWord, State.present]

/-- Settles O42. -/
theorem stepRunsTheDecodedOperation : Obligations.StepRunsTheDecodedOperation := by
  refine ⟨fun s w ws ts hsch hin => ⟨step_accepts hin hsch, step_holds hin hsch⟩, fun s F c ts hsch hslot hcmd => ?_,
    fun s ts hsch => step_cons hsch, fun s w hheld => ?_⟩
  · exact (step_cons hsch).trans (lookTurn_of_command (s := s.withSchedule ts) hslot hcmd)
  · rw [withFetchWord_opWord]
    exact step_accepts rfl rfl hheld

/-! ### The opcode table read in order -/

/-- The first row answers if it accepts the bits, else the rows behind it do (30_encoding R78). -/
theorem firstMatch_cons (r : Row) (i : Instr) (rows : List (Row × Instr)) (n : Nat) :
    firstMatch ((r, i) :: rows) n = if r.accepts n = true then some i else firstMatch rows n := by
  unfold firstMatch
  cases h : r.accepts n <;> simp [h]

/-- A row with the full mask of an operation word accepts its pattern alone. -/
theorem accepts_fullWord (pattern : Nat) (w : OpWord) :
    Row.accepts ⟨pattern, 0xFFF⟩ w.toNat = true ↔ w.toNat = pattern := by
  have hmask : w.toNat &&& 0xFFF = w.toNat % 2 ^ 12 := Nat.and_two_pow_sub_one_eq_mod _ 12
  simp [Row.accepts, hmask, Nat.mod_eq_of_lt w.isLt]

/-- A row with the full mask of a command byte accepts its pattern alone. -/
theorem accepts_fullByte (pattern : Nat) (c : Byte) :
    Row.accepts ⟨pattern, 0xFF⟩ c.toNat = true ↔ c.toNat = pattern := by
  have hmask : c.toNat &&& 0xFF = c.toNat % 2 ^ 8 := Nat.and_two_pow_sub_one_eq_mod _ 8
  simp [Row.accepts, hmask, Nat.mod_eq_of_lt c.isLt]

/-- The row of PUSH accepts the words with opcode 1. -/
theorem accepts_pushRow (w : OpWord) : Row.accepts ⟨0x100, 0xF00⟩ w.toNat = true ↔ w.toNat / 256 = 1 := by
  have hw : w.toNat < 4096 := w.isLt
  have hhigh : (w.toNat &&& 0xF00) / 2 ^ 8 = (w.toNat / 2 ^ 8) % 2 ^ 4 := by
    rw [Nat.and_div_two_pow]
    exact Nat.and_two_pow_sub_one_eq_mod _ 4
  have hlow : (w.toNat &&& 0xF00) % 2 ^ 8 = 0 := by
    rw [Nat.and_mod_two_pow]
    exact Nat.and_zero _
  simp only [Row.accepts, beq_iff_eq]
  omega

/-- The last row of either table accepts everything. -/
theorem accepts_unmasked (n : Nat) : Row.accepts ⟨0, 0⟩ n = true := by
  simp [Row.accepts]

/-- The row of NOP refuses a PUSH word, and the row of PUSH, the next one, accepts it. -/
theorem firstMatch_pushWord (b : Byte) : firstMatch (opWordRows (pushWord b)) (pushWord b).toNat = some (.push b) := by
  have hop : (pushWord b).toNat / 256 = 1 := by
    have hb : b.toNat < 256 := b.isLt
    rw [toNat_eq_fields, pushWord, opField_opWord, operandField_opWord]
    change (1 * 256 + b.toNat) / 256 = 1
    omega
  have hnop : (pushWord b).toNat ≠ 0x000 := by omega
  simp only [opWordRows, firstMatch_cons, accepts_fullWord, accepts_pushRow, if_neg hnop, if_pos hop]
  simp [pushWord]

/-- No row before the last accepts a word of the list of 30_encoding R76. -/
theorem firstMatch_of_isIllegalWord {w : OpWord} (h : isIllegalWord w = true) :
    firstMatch (opWordRows w) w.toNat = some (.illegal w) := by
  rw [isIllegalWord_iff_ranges] at h
  simp only [opWordRows, firstMatch_cons, accepts_fullWord, accepts_pushRow, accepts_unmasked]
  simp (disch := omega) only [if_neg, if_true]

/-- No row before the last accepts a command byte without an arm. -/
theorem firstMatch_of_unsupported {c : Byte} (h : isSupportedCommand c = false) :
    firstMatch (commandRows c) c.toNat = some (.decUnsupported c) := by
  obtain ⟨h3, h4, h5⟩ : c.toNat ≠ 3 ∧ c.toNat ≠ 4 ∧ c.toNat ≠ 5 := by
    simpa [isSupportedCommand, ← BitVec.toNat_inj, and_assoc] using h
  simp only [commandRows, firstMatch_cons, accepts_fullByte, accepts_unmasked, if_neg h3, if_neg h4, if_neg h5,
    if_true]

/-- Settles O56: the words with a fixed operand have a row each, and the tables end in the row of what is left. -/
theorem decodingIsTheFirstMatchingRow : Obligations.DecodingIsTheFirstMatchingRow := by
  refine ⟨fun w => ?_, fun c => ?_⟩
  · obtain rfl | ⟨b, rfl⟩ | rfl | ⟨n, rfl⟩ | rfl | hill := opWord_pattern_cases w
    · rfl
    · rw [decodeWord_pushWord, firstMatch_pushWord]
    · rfl
    · cases n <;> rfl
    · rfl
    · rw [decodeWord_of_isIllegalWord hill, firstMatch_of_isIllegalWord hill]
  · obtain rfl | rfl | rfl | hc := command_cases c
    · rfl
    · rfl
    · rfl
    · rw [decodeCommand_of_unsupported hc, firstMatch_of_unsupported hc]

/-- Settles O57. -/
theorem writtenOutWordsDecode : Obligations.WrittenOutWordsDecode := by
  unfold Obligations.WrittenOutWordsDecode
  decide

end Sys2Proof.Machine
end

section
/-!
PROOFS. The statements of 40_frame_decoder: what each operation of the decoder does and leaves unchanged, runs without
an emission, `Feed`, and the guard that does not fire.
-/

namespace Sys2Proof.Machine

/-! ### The operations -/

/-- Settles O3. -/
theorem nopLeavesEveryState : Obligations.NopLeavesEveryState :=
  ⟨rfl, decodeWord_nopWord, fun _ => ⟨rfl, rfl⟩⟩

/-- The word of a PUSH as a number (30_encoding R71). -/
theorem pushWord_eq_ofNat (b : Byte) : pushWord b = BitVec.ofNat 12 (0x100 + b.toNat) := by
  have hb : b.toNat < 256 := b.isLt
  apply BitVec.eq_of_toNat_eq
  rw [toNat_eq_fields, pushWord, opField_opWord, operandField_opWord, BitVec.toNat_ofNat]
  simp only [BitVec.reduceToNat]
  omega

/-- While OVF is set, a PUSH does nothing (R107). -/
theorem exec_push_of_ovf {s : State} (hovf : s.ovf = true) (b : Byte) : exec (.push b) s = .next s := by
  simp [exec, execPush, hovf]

/-- The guard: a PUSH on a full accumulator raises OVF and drops its byte (R106). -/
theorem exec_push_of_full {s : State} (hovf : s.ovf = false) (hfull : s.accFull = true) (b : Byte) :
    exec (.push b) s = .next s.raiseOvf := by
  simp [exec, execPush, hovf, hfull]

/-- With OVF clear and room in the accumulator, a PUSH appends its byte (R102). -/
theorem exec_push_of_room {s : State} (hovf : s.ovf = false) (hfull : s.accFull = false) (b : Byte) :
    exec (.push b) s = .next (s.appendAcc b) := by
  simp [exec, execPush, hovf, hfull]

/-- Settles O4. -/
theorem pushAppendsItsByte : Obligations.PushAppendsItsByte := by
  intro b s
  rw [← pushWord_eq_ofNat]
  refine ⟨rfl, decodeWord_pushWord b, rfl, fun hovf => exec_push_of_ovf hovf b, fun hovf hcap => ?_,
    fun hovf hcap => ?_⟩
  · exact exec_push_of_full hovf ((accFull_iff s).2 hcap) b
  · have hroom : s.accFull = false := Bool.eq_false_iff.2 (mt (accFull_iff s).1 hcap)
    exact exec_push_of_room hovf hroom b

/-- While OVF is set, an EOC does nothing and is not held (R107). -/
theorem exec_eoc_of_ovf {s : State} (hovf : s.ovf = true) : exec .eoc s = .next s ∧ holds .eoc s = false := by
  simp [exec, execEoc, holds, hovf]

/-- On a full slot an EOC is held and the state stays (R103). -/
theorem exec_eoc_of_slot {s : State} {F : List Byte} (hovf : s.ovf = false) (hslot : s.slot = some F) :
    exec .eoc s = .next s ∧ holds .eoc s = true := by
  simp [exec, execEoc, State.outValid, holds, hovf, hslot]

/-- On an empty slot an EOC emits an accumulator that closes (R103). -/
theorem exec_eoc_of_closes {s : State} (hovf : s.ovf = false) (hslot : s.slot = none)
    (hcloses : closes s.acc = true) : exec .eoc s = .next s.emitAcc := by
  simp [exec, execEoc, State.outValid, hovf, hslot, hcloses]

/-- An EOC over an accumulator that does not close changes nothing, whatever OVF and the slot are (R103). -/
theorem exec_eoc_of_not_closes {s : State} (hcloses : closes s.acc = false) : exec .eoc s = .next s := by
  simp [exec, execEoc, hcloses]

/-- With OVF clear, an EOC that is not held finds the slot empty (30_encoding R72). -/
theorem holds_eoc_eq_false_iff {s : State} (hovf : s.ovf = false) : holds .eoc s = false ↔ s.slot = none := by
  simp [holds, hovf]

/-- A turn that is neither a POP nor a reset leaves a held EOC on the port and held (R103). -/
theorem step_keeps_hold {s t : State} {ws : List OpWord} {u : Turn} {ts : List Turn} (hin : s.input = eocWord :: ws)
    (hheld : holds .eoc s = true) (hsch : s.schedule = u :: ts) (h : step s = .next t) :
    (t.input = s.input ∧ holds .eoc t = true) ∨ u = .consumer .pop ∨ u = .reset := by
  rw [step_cons hsch] at h
  cases u with
  | producer =>
    have hstay : step s = .next (s.withSchedule ts) := step_holds hin hsch (by rwa [decodeWord_eocWord])
    rw [← step_cons hsch, hstay] at h
    cases h
    exact .inl ⟨rfl, hheld⟩
  | consumer a =>
    cases a with
    | read sel idx =>
      rw [takeTurn, consumerTurn, performRead_eq] at h
      cases h
      exact .inl ⟨rfl, hheld⟩
    | look =>
      rw [takeTurn, consumerTurn, lookTurn_eq] at h
      cases h
      exact .inl ⟨rfl, hheld⟩
    | pop => exact .inr (.inl rfl)
  | reset => exact .inr (.inr rfl)

/-- Settles O5. -/
theorem eocEmitsHoldsOrWaits : Obligations.EocEmitsHoldsOrWaits := by
  refine ⟨rfl, decodeWord_eocWord, fun s => ⟨exec_eoc_of_ovf, fun F => exec_eoc_of_slot, ?_, ?_⟩,
    fun s t ws u ts => step_keeps_hold⟩
  · exact fun hovf hslot hcloses =>
      ⟨exec_eoc_of_closes hovf hslot hcloses, (holds_eoc_eq_false_iff hovf).2 hslot⟩
  · exact fun hovf hslot hcloses => ⟨exec_eoc_of_not_closes hcloses, (holds_eoc_eq_false_iff hovf).2 hslot⟩

/-- Settles O6. -/
theorem clrEqualsTheResetInput : Obligations.ClrEqualsTheResetInput :=
  ⟨rfl, decodeWord_clrWord, fun _ => ⟨rfl, rfl, rfl⟩, fun _ _ _ => exec_clears_flag⟩

/-- Settles O7: a PUSH does nothing, raises OVF or appends, and none of these touches ILL. -/
theorem illegalWordRaisesIllAlone : Obligations.IllegalWordRaisesIllAlone := by
  refine ⟨fun w s hill => ?_, fun b s t h => ?_⟩
  · rw [decodeWord_of_isIllegalWord hill]
    exact ⟨rfl, rfl, rfl⟩
  · obtain ⟨-, rfl⟩ | ⟨-, -, rfl⟩ | ⟨-, -, rfl⟩ := execPush_cases b h
    · rfl
    · exact State.raiseOvf_ill s
    · exact State.appendAcc_ill s b

/-- Reads other than STATUS do not speak of OVF (10_state R37). -/
theorem rd_ovf_irrelevant (s : State) (ovf : Bool) {sel : BitVec 4} (hsel : sel ≠ 0) (idx : BitVec 16) :
    rd s sel idx = rd { s with ovf := ovf } sel idx := by
  unfold rd
  split
  case h_1 h0 => exact absurd (BitVec.eq_of_toNat_eq h0) hsel
  all_goals rfl

/-- Settles O10: `flagsAreSticky` says that only a reset turn and a CLR word end the lock. -/
theorem overflowLocksUntilClrOrReset : Obligations.OverflowLocksUntilClrOrReset := by
  intro s hovf
  refine ⟨fun b => ⟨exec_push_of_ovf hovf b, rfl⟩, exec_eoc_of_ovf hovf, rfl, fun n => exec_commandInstr n s,
    fun w => rfl, ⟨s.clear, rfl, rfl⟩, rfl, fun sel idx hsel => rd_ovf_irrelevant s false hsel idx, fun t h => ?_⟩
  obtain ⟨-, -, hclears⟩ := flagsAreSticky s t h
  cases ht : t.ovf with
  | true => exact .inl rfl
  | false =>
    obtain hreset | ⟨hprod, ws, hin⟩ := hclears (.inl ⟨hovf, ht⟩)
    · exact .inr (.inl hreset)
    · exact .inr (.inr ⟨hprod, by rw [hin]; rfl⟩)

/-- Only the four arms of the extractor have a result (41_payload_extractor R131). -/
theorem isArm_of_armResult {i : Instr} {F : List Byte} {r : Result} (h : armResult i F = some r) :
    i = .decBatt ∨ i = .decCell ∨ i = .decInfo ∨ ∃ c, i = .decUnsupported c := by
  cases i <;> simp_all [armResult]

/-- Settles O49: each alternative of `exec_cases` is one update, and names its operation. -/
theorem operationsKeepTheirFrame : Obligations.OperationsKeepTheirFrame := by
  intro i s t h
  obtain rfl | ⟨b, rfl, -, -, rfl⟩ | ⟨b, rfl, -, -, rfl⟩ | ⟨rfl, -, -, -, rfl⟩ | ⟨rfl, rfl⟩ | ⟨w, rfl, rfl⟩ |
    ⟨n, rfl, rfl⟩ | ⟨rfl, rfl⟩ | ⟨F, r, -, -, harm, rfl⟩ := exec_cases h
  case inr.inr.inr.inr.inr.inr.inr.inr => simp [isArm_of_armResult harm]
  all_goals simp

/-! ### The boundary test and `Feed` -/

/-- Settles O15. -/
theorem closingDependsOnTheEndsAlone : Obligations.ClosingDependsOnTheEndsAlone := by
  have hends : ∀ A : List Byte,
      closes A = true ↔ A.length > 4 ∧ A[0]? = some 0xDD ∧ A[A.length - 1]? = some 0x77 := by
    intro A
    rw [closes_iff, List.head?_eq_getElem?, List.getLast?_eq_getElem?]
    rfl
  refine ⟨hends, fun A B hlen hfirst hlast => ?_⟩
  rw [Bool.eq_iff_iff, hends, hends, hlen, hfirst, ← hlast, hlen]

/-- A list whose first byte is not `START` never closes (R115). -/
theorem closes_eq_false_of_head {A : List Byte} (h : A.head? ≠ some startMarker) : closes A = false := by
  simp [closes, h]

/-- What follows a list that closes keeps its first byte, and what closes at the end closes the whole (R113). -/
theorem closes_append {F G : List Byte} (hF : closes F = true) (hG : closes G = true) : closes (F ++ G) = true := by
  obtain ⟨hlen, hhead, -⟩ := (closes_iff F).1 hF
  obtain ⟨-, -, hlast⟩ := (closes_iff G).1 hG
  refine (closes_iff _).2 ⟨by rw [List.length_append]; omega, ?_, ?_⟩
  · rw [List.head?_append, hhead, Option.some_or]
  · rw [List.getLast?_append, hlast, Option.some_or]

/-- `Feed` never leaves an accumulator that closes (R111). -/
theorem closes_feed (acc chunk : List Byte) : closes (feed acc chunk).1 = false := by
  obtain ⟨-, hf⟩ | ⟨hc, hf⟩ := feed_cases acc chunk <;> rw [hf]
  · exact closes_nil
  · exact hc

/-- Settles O13. -/
theorem atRestTheAccumulatorDoesNotClose : Obligations.AtRestTheAccumulatorDoesNotClose := by
  refine ⟨fun s t hovf hheld h => ?_, fun s t h => ?_, fun s t h => ?_, fun s hacc => ?_, ?_⟩
  · rw [exec_eoc_eq_feed hovf ((holds_eoc_eq_false_iff hovf).1 hheld)] at h
    cases h
    exact closes_feed s.acc []
  · cases h
    exact closes_nil
  · cases h
    exact closes_nil
  · exact exec_eoc_of_not_closes (by rw [hacc]; decide)
  · exact ⟨{ State.reset with acc := [0xDD, 0x00, 0x00, 0x00] }, _, 0x77, by decide, rfl, by decide⟩

/-- Settles O17. -/
theorem chunkBoundariesChangeTheFrames : Obligations.ChunkBoundariesChangeTheFrames := by
  intro a b ha hb
  rw [feed_nil_of_closes ha]
  refine ⟨rfl, rfl, ?_, fun hhead => ?_⟩
  · obtain ⟨-, hf⟩ | ⟨-, hf⟩ := feed_cases [] (a ++ b) <;> simp [hf, hb]
  · have hopen : closes b = false := closes_eq_false_of_head hhead
    simp [feed, hopen]

/-- DEC.BATT gives a record or TRUNCATED (41_payload_extractor R133). -/
theorem decBatt_cases (F : List Byte) : decBatt F = .truncated 3 ∨ ∃ b, decBatt F = .battery b := by
  unfold decBatt
  split
  · exact .inl rfl
  · exact .inr ⟨_, rfl⟩

/-- DEC.CELL gives the cells, BADCOUNT or TRUNCATED (41_payload_extractor R135). -/
theorem decCell_cases (F : List Byte) :
    decCell F = .truncated 4 ∨ (∃ raw, decCell F = .badCount 4 raw) ∨ ∃ n cells, decCell F = .cell n cells := by
  unfold decCell
  split
  · exact .inl rfl
  next raw _ =>
    split
    · exact .inr (.inl ⟨raw, rfl⟩)
    · split
      · exact .inl rfl
      · exact .inr (.inr ⟨_, _, rfl⟩)

/-- The arm of the command byte gives the result (41_payload_extractor R131). -/
theorem extract_eq_armResult {F : List Byte} {c : Byte} (hcmd : F[1]? = some c) :
    extract F = armResult (decodeCommand c) F := by
  simp [extract, hcmd]

/-- The command byte alone selects the arm, and each arm gives a result of its kinds (41_payload_extractor R131). -/
theorem extract_of_command {F : List Byte} {c : Byte} (hcmd : F[1]? = some c) :
    ∃ r, extract F = some r ∧
      (c = 3 → r = .truncated 3 ∨ ∃ b, r = .battery b) ∧
      (c = 4 → r = .truncated 4 ∨ (∃ raw, r = .badCount 4 raw) ∨ ∃ n cells, r = .cell n cells) ∧
      (c = 5 → ∃ name, r = .info name) ∧
      (c ≠ 3 → c ≠ 4 → c ≠ 5 → r = .unsupported c) := by
  obtain rfl | rfl | rfl | hc := command_cases c
  · exact ⟨decBatt F, extract_eq_armResult hcmd, fun _ => decBatt_cases F, by simp, by simp, by simp⟩
  · exact ⟨decCell F, extract_eq_armResult hcmd, by simp, fun _ => decCell_cases F, by simp, by simp⟩
  · exact ⟨decInfo F, extract_eq_armResult hcmd, by simp, by simp, fun _ => ⟨_, rfl⟩, by simp⟩
  · refine ⟨.unsupported c, extract_of_unsupported hcmd hc, ?_, ?_, ?_, fun _ _ _ => rfl⟩ <;> rintro rfl <;> cases hc

/-- Settles O16: the merged list closes at its ends, and its byte 1 is that of the first frame. -/
theorem framesInOneChunkMerge : Obligations.FramesInOneChunkMerge := by
  intro F G hF hG
  have hmerged : closes (F ++ G) = true := closes_append hF hG
  refine ⟨feed_nil_of_closes hmerged, fun s hovf hslot hacc => ?_, ?_⟩
  · rw [← hacc] at hmerged ⊢
    exact exec_eoc_of_closes hovf hslot hmerged
  · obtain ⟨⟨c, hc⟩, -⟩ := header_of_closes hF
    have hcmd : (F ++ G)[1]? = some c := by
      obtain ⟨hlen, -, -⟩ := (closes_iff F).1 hF
      rw [List.getElem?_append_left (by omega), hc]
    obtain ⟨r, hr⟩ := extract_of_command hcmd
    exact ⟨c, r, hc, hcmd, hr⟩

/-! ### Runs that emit nothing -/

/-- No operation touches the schedule. -/
theorem exec_keeps_schedule {i : Instr} {s t : State} (h : exec i s = .next t) : t.schedule = s.schedule := by
  obtain ⟨-, -, hsch, -⟩ := operationsKeepTheirFrame i s t h
  exact hsch

/-- A step takes the first turn of the schedule. -/
theorem step_schedule {s t : State} (h : step s = .next t) : t.schedule = s.schedule.tail := by
  obtain ⟨hs, rfl⟩ | ⟨u, ts, hs, hc⟩ := step_cases h
  · simp [hs]
  rw [hs, List.tail_cons]
  obtain ⟨-, -, rfl⟩ | ⟨-, w, ws, -, -, hexec⟩ | ⟨sel, idx, -, rfl⟩ | ⟨-, rfl⟩ | ⟨-, rfl⟩ | ⟨-, rfl⟩ := hc
  · rfl
  · exact exec_keeps_schedule hexec
  · rw [performRead_eq]
    rfl
  · rfl
  · rfl
  · rfl

theorem noReset_step {s t : State} (hsch : noReset s.schedule = true) (h : step s = .next t) :
    noReset t.schedule = true := by
  rw [step_schedule h]
  exact List.all_eq_true.2 fun u hu => List.all_eq_true.1 hsch u (List.mem_of_mem_tail hu)

theorem noReset_head {s : State} (hsch : noReset s.schedule = true) : s.schedule.head? ≠ some .reset := by
  intro hhead
  simpa using List.all_eq_true.1 hsch _ (List.mem_of_mem_head? hhead)

theorem step_input_suffix {s t : State} (h : step s = .next t) : t.input <:+ s.input := by
  obtain hin | ⟨w, hin, -, -⟩ := step_input h
  · rw [hin]
  · exact hin ▸ List.suffix_cons w t.input

/-- The offered words only get fewer, from the front. -/
theorem run_input_suffix {k : Nat} {s t : State} (h : Host.Core.run core k s = .next t) : t.input <:+ s.input :=
  run_keeps (P := fun m => m.input <:+ s.input) (fun _ _ hm hn => (step_input_suffix hn).trans hm) List.suffix_rfl h

theorem pushedBytes_append (ws us : List OpWord) : pushedBytes (ws ++ us) = pushedBytes ws ++ pushedBytes us :=
  List.filterMap_append

/-- A word pushes its operand, if it is a PUSH, and else nothing. -/
theorem pushedBytes_singleton_push {w : OpWord} {b : Byte} (h : decodeWord w = .push b) : pushedBytes [w] = [b] := by
  simp [pushedBytes, h]

theorem pushedBytes_singleton_other {w : OpWord} (h : ∀ b, decodeWord w ≠ .push b) : pushedBytes [w] = [] := by
  unfold pushedBytes
  rw [List.filterMap_cons_none, List.filterMap_nil]
  split
  · exact absurd ‹_› (h _)
  · rfl

/-- What the decoder does while no frame is emitted and nothing is cleared: the words taken off the port are `used`,
ACC grows, by all their PUSH bytes unless OVF got set, and the slot is at most emptied. -/
structure Accumulates (used : List OpWord) (s t : State) : Prop where
  cfg : t.cfg = s.cfg
  input : s.input = used ++ t.input
  acc : ∃ grown, t.acc = s.acc ++ grown
  slot : t.slot = s.slot ∨ t.slot = none
  ovf_sticky : t.ovf = false → s.ovf = false
  pushed : t.ovf = false → t.acc = s.acc ++ pushedBytes used
  unguarded : s.cfg.accCap = none → t.ovf = s.ovf

theorem Accumulates.trans {ws us : List OpWord} {s m t : State} (hsm : Accumulates ws s m)
    (hmt : Accumulates us m t) : Accumulates (ws ++ us) s t where
  cfg := hmt.cfg.trans hsm.cfg
  input := by rw [hsm.input, hmt.input, List.append_assoc]
  acc := by
    obtain ⟨first, hfirst⟩ := hsm.acc
    obtain ⟨second, hsecond⟩ := hmt.acc
    exact ⟨first ++ second, by rw [hsecond, hfirst, List.append_assoc]⟩
  slot := hmt.slot.elim (fun h => hsm.slot.imp h.trans h.trans) .inr
  ovf_sticky h := hsm.ovf_sticky (hmt.ovf_sticky h)
  pushed h := by rw [hmt.pushed h, hsm.pushed (hmt.ovf_sticky h), pushedBytes_append, List.append_assoc]
  unguarded h := (hmt.unguarded (by rw [hsm.cfg, h])).trans (hsm.unguarded h)

/-- Words without a PUSH, over which ACC and OVF stay and the slot is at most emptied. -/
theorem Accumulates.of_pushless {used : List OpWord} {s t : State} (hin : s.input = used ++ t.input)
    (hpush : pushedBytes used = []) (hcfg : t.cfg = s.cfg) (hacc : t.acc = s.acc)
    (hslot : t.slot = s.slot ∨ t.slot = none) (hovf : t.ovf = s.ovf) : Accumulates used s t where
  cfg := hcfg
  input := hin
  acc := ⟨[], by rw [hacc, List.append_nil]⟩
  slot := hslot
  ovf_sticky h := hovf ▸ h
  pushed _ := by rw [hacc, hpush, List.append_nil]
  unguarded _ := hovf

theorem Accumulates.refl (s : State) : Accumulates [] s s := .of_pushless rfl rfl rfl rfl (.inl rfl) rfl

/-- The words emit nothing over this accumulator: no EOC is among them, or whatever bytes follow in the
accumulator, it does not close. -/
def EmitsNothing (used : List OpWord) (acc : List Byte) : Prop :=
  (∀ w ∈ used, decodeWord w ≠ .eoc) ∨ ∀ grown, closes (acc ++ grown) = false

theorem EmitsNothing.closes_eq_false {w : OpWord} {acc : List Byte} (h : EmitsNothing [w] acc)
    (hw : decodeWord w = .eoc) : closes acc = false := by
  obtain hwords | hlocked := h
  · exact absurd hw (hwords w (List.mem_singleton_self w))
  · simpa using hlocked []

theorem EmitsNothing.left {ws us : List OpWord} {acc : List Byte} (h : EmitsNothing (ws ++ us) acc) :
    EmitsNothing ws acc :=
  h.imp_left fun hwords w hw => hwords w (List.mem_append_left us hw)

/-- Bytes behind an accumulator that never closes change nothing about that. -/
theorem EmitsNothing.right {ws us : List OpWord} {acc acc' : List Byte} (h : EmitsNothing (ws ++ us) acc)
    (hacc : ∃ grown, acc' = acc ++ grown) : EmitsNothing us acc' := by
  obtain ⟨first, rfl⟩ := hacc
  obtain hwords | hlocked := h
  · exact .inl fun w hw => hwords w (List.mem_append_right ws hw)
  · exact .inr fun grown => by rw [List.append_assoc, hlocked]

/-- An accepted PUSH, in its three cases (R102). -/
theorem Accumulates.of_push {w : OpWord} {ws : List OpWord} {ts : List Turn} {b : Byte} {s t : State}
    (hin : s.input = w :: ws) (hword : decodeWord w = .push b)
    (hexec : exec (decodeWord w) ((s.withSchedule ts).withInput ws) = .next t) : Accumulates [w] s t := by
  rw [hword] at hexec
  have hbyte : pushedBytes [w] = [b] := pushedBytes_singleton_push hword
  obtain ⟨hovf, rfl⟩ | ⟨hovf, hfull, rfl⟩ | ⟨hovf, -, rfl⟩ := execPush_cases b hexec
  · have hset : s.ovf = true := hovf
    exact ⟨rfl, hin, ⟨[], by simp⟩, .inl rfl, id, by simp [hset], fun _ => rfl⟩
  · have hcap : s.cfg.accCap = some s.acc.length := (accFull_iff _).1 hfull
    exact ⟨rfl, hin, ⟨[], by simp⟩, .inl rfl, by simp, by simp, by simp [hcap]⟩
  · exact ⟨rfl, hin, ⟨[b], rfl⟩, .inl rfl, id, fun _ => by rw [hbyte]; rfl, fun _ => rfl⟩

/-- An accepted word that is no CLR, and no EOC that emits, accumulates its byte or nothing. -/
theorem exec_accumulates {w : OpWord} {ws : List OpWord} {ts : List Turn} {s t : State} (hin : s.input = w :: ws)
    (hexec : exec (decodeWord w) ((s.withSchedule ts).withInput ws) = .next t) (hclr : decodeWord w ≠ .clr)
    (hquiet : EmitsNothing [w] s.acc) : Accumulates [w] s t := by
  by_cases hpush : ∃ b, decodeWord w = .push b
  · obtain ⟨b, hb⟩ := hpush
    exact .of_push hin hb hexec
  have hother : ∀ b, decodeWord w ≠ .push b := fun b hb => hpush ⟨b, hb⟩
  have hsilent : pushedBytes [w] = [] := pushedBytes_singleton_other hother
  obtain rfl | ⟨b, hb, -⟩ | ⟨b, hb, -⟩ | ⟨heoc, -, -, hcloses, -⟩ | ⟨hc, -⟩ | ⟨v, -, rfl⟩ | ⟨n, -, rfl⟩ | ⟨-, rfl⟩ |
    ⟨F, r, -, -, -, rfl⟩ := exec_cases hexec
  · exact .of_pushless hin hsilent rfl rfl (.inl rfl) rfl
  · exact absurd hb (hother b)
  · exact absurd hb (hother b)
  · cases (hquiet.closes_eq_false heoc).symm.trans hcloses
  · exact absurd hc hclr
  · exact .of_pushless hin hsilent rfl rfl (.inl rfl) rfl
  · exact .of_pushless hin hsilent rfl rfl (.inl rfl) rfl
  · exact .of_pushless hin hsilent rfl rfl (.inr rfl) rfl
  · exact .of_pushless hin hsilent rfl rfl (.inl rfl) rfl

/-- A step without a reset whose word, if it takes one, clears and emits nothing. -/
theorem step_accumulates {used : List OpWord} {s t : State} (h : step s = .next t)
    (hsch : noReset s.schedule = true) (hin : s.input = used ++ t.input)
    (hclr : ∀ w ∈ used, decodeWord w ≠ .clr) (hquiet : EmitsNothing used s.acc) : Accumulates used s t := by
  have hused : ∀ {us : List OpWord}, Accumulates us s t → Accumulates used s t := fun {us} hacc => by
    rwa [List.append_cancel_right (hin.symm.trans hacc.input)]
  obtain ⟨ws, ts, ⟨rfl, rfl⟩ | ⟨rfl, -, o, new, -, rfl⟩ | ⟨rfl, -, rfl⟩ | ⟨-, hreset, -⟩ |
    ⟨-, w, hw, -, hexec⟩⟩ := step_effect h
  · exact hused (us := []) (.of_pushless rfl rfl rfl rfl (.inl rfl) rfl)
  · exact hused (us := []) (.of_pushless rfl rfl rfl rfl (.inl rfl) rfl)
  · exact hused (us := []) (.of_pushless rfl rfl rfl rfl (.inr rfl) rfl)
  · exact absurd hreset (noReset_head hsch)
  · have hrest : t.input = ws := exec_keeps_input hexec
    obtain rfl : used = [w] := List.append_cancel_right (hin.symm.trans (hw.trans (by rw [hrest]; rfl)))
    exact exec_accumulates hw hexec (hclr w (List.mem_singleton_self w)) hquiet

/-- A run without a reset whose words clear and emit nothing accumulates their bytes, whatever turns come between. -/
theorem run_accumulates {k : Nat} {t : State} :
    ∀ {used : List OpWord} {s : State}, Host.Core.run core k s = .next t → noReset s.schedule = true →
      s.input = used ++ t.input → (∀ w ∈ used, decodeWord w ≠ .clr) → EmitsNothing used s.acc →
      Accumulates used s t := by
  induction k with
  | zero =>
    intro used s h _ hin _ _
    cases h
    obtain rfl : used = [] := List.append_cancel_right (hin.symm.trans (List.nil_append _).symm)
    exact .refl _
  | succ k ih =>
    intro used s h hsch hin hclr hquiet
    obtain ⟨m, hstep, hrun⟩ := run_succ h
    obtain ⟨first, hfirst⟩ := step_input_suffix hstep
    obtain ⟨later, hlater⟩ := run_input_suffix hrun
    obtain rfl : used = first ++ later :=
      List.append_cancel_right (by rw [← hin, List.append_assoc, hlater, hfirst])
    have hsm : Accumulates first s m :=
      step_accumulates hstep hsch hfirst.symm (fun w hw => hclr w (List.mem_append_left later hw)) hquiet.left
    have hmt : Accumulates later m t :=
      ih hrun (noReset_step hsch hstep) hlater.symm (fun w hw => hclr w (List.mem_append_right first hw))
        (hquiet.right hsm.acc)
    exact hsm.trans hmt

/-- Settles O18: an accumulator that starts with another byte never closes, so the run only accumulates. -/
theorem leadingByteLocksTheDecoder : Obligations.LeadingByteLocksTheDecoder := by
  intro k s t b more hacc hb hsch hclr h
  have hlocked : ∀ grown, closes (s.acc ++ grown) = false := fun grown =>
    closes_eq_false_of_head (by rw [hacc]; exact fun hhead => hb (Option.some.inj hhead))
  have haccumulates : ∀ used, s.input = used ++ t.input → Accumulates used s t := fun used hin => by
    refine run_accumulates h hsch hin (fun w hw => ?_) (.inr hlocked)
    simpa using List.all_eq_true.1 hclr w (hin ▸ List.mem_append_left t.input hw)
  obtain ⟨used, hused⟩ := run_input_suffix h
  have hrun : Accumulates used s t := haccumulates used hused.symm
  exact ⟨hrun.acc, hrun.slot, fun used hin _ ht => (haccumulates used hin).pushed ht, hrun.unguarded⟩

/-! ### FEED against the source's feed -/

theorem insideChunk_iff (ws : List OpWord) :
    insideChunk ws = true ↔ ∀ w ∈ ws, decodeWord w ≠ .eoc ∧ decodeWord w ≠ .clr := by
  simp [insideChunk]

/-- An offered EOC that leaves the port with OVF clear does what `Feed` of no further byte does. -/
theorem step_accepts_eoc {s t : State} {ws : List OpWord} (hin : s.input = eocWord :: ws) (hovf : s.ovf = false)
    (h : step s = .next t) (ht : t.input = ws) :
    s.slot = none ∧ t.acc = (feed s.acc []).1 ∧ t.slot = (feed s.acc []).2.head? := by
  obtain hstay | ⟨w, hw, hhead, hheld⟩ := step_input h
  · rw [hin, ht] at hstay
    exact absurd hstay.symm (List.cons_ne_self _ _)
  obtain ⟨rfl, -⟩ := List.cons.inj (hin.symm.trans hw)
  rw [decodeWord_eocWord, holds_eoc_eq_false_iff hovf] at hheld
  obtain ⟨ts, hsch⟩ := List.head?_eq_some_iff.1 hhead
  rw [step_eocWord hovf hheld hin hsch] at h
  cases h
  exact ⟨hheld, rfl, rfl⟩

/-- Settles O12: the run up to the EOC accumulates the chunk, and the EOC is a `Feed` of no further byte. -/
theorem feedEqualsTheSourceFeed : Obligations.FeedEqualsTheSourceFeed := by
  intro ws rest s mid t k hin hinside hsch _ hrun hmid hovf hstep ht
  rw [insideChunk_iff] at hinside
  have hacc : mid.acc = s.acc ++ pushedBytes ws :=
    (run_accumulates hrun hsch (by rw [hin, hmid]) (fun w hw => (hinside w hw).2)
      (.inl fun w hw => (hinside w hw).1)).pushed hovf
  obtain ⟨hempty, htacc, htslot⟩ := step_accepts_eoc hmid hovf hstep ht
  rw [hacc, feed_append_nil] at htacc htslot
  exact ⟨htacc, fun a ha => by rw [htslot, ha]; rfl, fun hnone => by rw [htslot, hnone, hempty]; rfl⟩

/-! ### Empty chunks -/

/-- Of the operations but PUSH, none emits a frame over an accumulator that does not close, or makes it close. -/
theorem exec_emits_no_frame {i : Instr} {s t : State} (hpush : ∀ b, i ≠ .push b) (hopen : closes s.acc = false)
    (h : exec i s = .next t) : (t.slot = s.slot ∨ t.slot = none) ∧ closes t.acc = false := by
  obtain rfl | ⟨b, hb, -⟩ | ⟨b, hb, -⟩ | ⟨-, -, -, hcloses, -⟩ | ⟨-, rfl⟩ | ⟨w, -, rfl⟩ | ⟨n, -, rfl⟩ | ⟨-, rfl⟩ |
    ⟨F, r, -, -, -, rfl⟩ := exec_cases h
  · exact ⟨.inl rfl, hopen⟩
  · exact absurd hb (hpush b)
  · exact absurd hb (hpush b)
  · cases hopen.symm.trans hcloses
  · exact ⟨.inr rfl, closes_nil⟩
  · exact ⟨.inl rfl, hopen⟩
  · exact ⟨.inl rfl, hopen⟩
  · exact ⟨.inr rfl, hopen⟩
  · exact ⟨.inl rfl, hopen⟩

theorem step_emits_no_frame {s t : State} (hpush : pushedBytes s.input = []) (hopen : closes s.acc = false)
    (h : step s = .next t) : (t.slot = s.slot ∨ t.slot = none) ∧ closes t.acc = false := by
  obtain ⟨ws, ts, ⟨-, rfl⟩ | ⟨-, -, o, new, -, rfl⟩ | ⟨-, -, rfl⟩ | ⟨-, -, rfl⟩ | ⟨-, w, hin, -, hexec⟩⟩ :=
    step_effect h
  · exact ⟨.inl rfl, hopen⟩
  · exact ⟨.inl rfl, hopen⟩
  · exact ⟨.inr rfl, hopen⟩
  · exact ⟨.inr rfl, closes_nil⟩
  · have hother : ∀ b, decodeWord w ≠ .push b := fun b hb => by simp [pushedBytes, hin, hb] at hpush
    exact exec_emits_no_frame (s := (s.withSchedule ts).withInput ws) hother hopen hexec

theorem step_keeps_no_push {s t : State} (hpush : pushedBytes s.input = []) (h : step s = .next t) :
    pushedBytes t.input = [] := by
  obtain ⟨used, hused⟩ := step_input_suffix h
  rw [← hused, pushedBytes_append] at hpush
  exact (List.append_eq_nil_iff.1 hpush).2

/-- What an empty chunk keeps: the slot is at most emptied, ACC does not close, and no PUSH is offered. -/
def State.isQuiet (slot : Option (List Byte)) (m : State) : Prop :=
  (m.slot = slot ∨ m.slot = none) ∧ closes m.acc = false ∧ pushedBytes m.input = []

theorem step_keeps_isQuiet {slot : Option (List Byte)} {s t : State} (hquiet : s.isQuiet slot)
    (h : step s = .next t) : t.isQuiet slot := by
  obtain ⟨hslot, hopen, hpush⟩ := hquiet
  obtain ⟨hslot', hopen'⟩ := step_emits_no_frame hpush hopen h
  exact ⟨hslot'.elim (fun h => hslot.imp h.trans h.trans) .inr, hopen', step_keeps_no_push hpush h⟩

/-- Settles O14. -/
theorem emptyChunksNeverEmit : Obligations.EmptyChunksNeverEmit := by
  intro k s t hopen hpush h
  obtain ⟨hslot, hopen', -⟩ : t.isQuiet s.slot :=
    run_keeps (P := State.isQuiet s.slot) (fun _ _ => step_keeps_isQuiet) ⟨.inl rfl, hopen, hpush⟩ h
  exact ⟨hslot, hopen'⟩

/-! ### The guard that does not fire -/

/-- The same state of the unbounded build. -/
def State.withoutBound (s : State) : State := { s with cfg := Config.unbounded }

/-- A PUSH whose guard does not fire appends its byte or finds OVF set, with a bound and without. -/
theorem exec_push_withoutBound {b : Byte} {s t : State}
    (hguard : t.faults.count .accumulatorOverflow = s.faults.count .accumulatorOverflow)
    (h : exec (.push b) s = .next t) : exec (.push b) s.withoutBound = .next t.withoutBound := by
  obtain ⟨hovf, rfl⟩ | ⟨-, -, rfl⟩ | ⟨hovf, -, rfl⟩ := execPush_cases b h
  · exact exec_push_of_ovf (s := t.withoutBound) hovf b
  · simp at hguard
  · exact exec_push_unbounded (s := s.withoutBound) rfl hovf b

theorem exec_eoc_withoutBound {s t : State} (h : exec .eoc s = .next t) :
    exec .eoc s.withoutBound = .next t.withoutBound := by
  obtain ⟨hovf, rfl⟩ | ⟨hovf, hslot, rfl⟩ | ⟨-, -, hopen, rfl⟩ | ⟨hovf, hslot, hcloses, rfl⟩ := execEoc_cases h
  · exact (exec_eoc_of_ovf (s := t.withoutBound) hovf).1
  · obtain ⟨F, hF⟩ := Option.isSome_iff_exists.1 hslot
    exact (exec_eoc_of_slot (s := t.withoutBound) hovf hF).1
  · exact exec_eoc_of_not_closes (s := t.withoutBound) hopen
  · exact exec_eoc_of_closes (s := s.withoutBound) hovf hslot hcloses

theorem runArm_withoutBound {i : Instr} {arm : List Byte → Result} {s t : State} (h : runArm i arm s = .next t) :
    runArm i arm s.withoutBound = .next t.withoutBound := by
  have hslot : s.withoutBound.slot = s.slot := rfl
  unfold runArm at h ⊢
  rw [hslot]
  cases hs : s.slot with
  | none =>
    rw [hs] at h
    cases h
    rfl
  | some F =>
    rw [hs] at h
    cases hsel : selects i F <;> simp only [hsel] at h ⊢ <;> cases h <;> rfl

/-- The build plays a part in the guard of PUSH alone (R106): where it does not fire, an operation does on the
unbounded build what it does on the other one. -/
theorem exec_withoutBound {i : Instr} {s t : State}
    (hguard : t.faults.count .accumulatorOverflow = s.faults.count .accumulatorOverflow)
    (h : exec i s = .next t) : exec i s.withoutBound = .next t.withoutBound := by
  cases i
  case push b => exact exec_push_withoutBound hguard h
  case eoc => exact exec_eoc_withoutBound h
  case decBatt => exact runArm_withoutBound h
  case decCell => exact runArm_withoutBound h
  case decInfo => exact runArm_withoutBound h
  case decUnsupported c => exact runArm_withoutBound h
  all_goals
    cases h
    rfl

theorem step_withoutBound {s t : State}
    (hguard : t.faults.count .accumulatorOverflow = s.faults.count .accumulatorOverflow)
    (h : step s = .next t) : step s.withoutBound = .next t.withoutBound := by
  obtain ⟨hs, rfl⟩ | ⟨u, ts, hs, hc⟩ := step_cases h
  · exact step_nil hs
  obtain ⟨rfl, hin | ⟨w, ws, hin, hheld⟩, rfl⟩ | ⟨rfl, w, ws, hin, hheld, hexec⟩ | ⟨sel, idx, rfl, rfl⟩ | ⟨rfl, rfl⟩ |
    ⟨rfl, rfl⟩ | ⟨rfl, rfl⟩ := hc
  · exact (step_cons (s := s.withoutBound) hs).trans (producerTurn_nil hin)
  · exact step_holds (s := s.withoutBound) hin hs hheld
  · exact (step_accepts (s := s.withoutBound) hin hs hheld).trans 
      (exec_withoutBound (s := (s.withSchedule ts).withInput ws) hguard hexec)
  · rw [step_read (s := s.withoutBound) hs, performRead_eq, performRead_eq]
    rfl
  · exact (step_cons (s := s.withoutBound) hs).trans (lookTurn_eq _)
  · exact step_cons (s := s.withoutBound) hs
  · exact step_cons (s := s.withoutBound) hs

/-- The record of the faults is only lengthened (60_exceptions R200). -/
theorem exec_extends_faults {i : Instr} {s t : State} (h : exec i s = .next t) :
    ∃ new, t.faults = s.faults ++ new := by
  obtain rfl | ⟨b, -, -, -, rfl⟩ | ⟨b, -, -, -, rfl⟩ | ⟨-, -, -, -, rfl⟩ | ⟨-, rfl⟩ | ⟨w, -, rfl⟩ | ⟨n, -, rfl⟩ |
    ⟨-, rfl⟩ | ⟨F, r, -, -, -, rfl⟩ := exec_cases h
  case inr.inl => exact ⟨_, rfl⟩
  case inr.inr.inr.inr.inr.inl => exact ⟨_, rfl⟩
  all_goals exact ⟨[], (List.append_nil _).symm⟩

theorem step_extends_faults {s t : State} (h : step s = .next t) : ∃ new, t.faults = s.faults ++ new := by
  obtain ⟨ws, ts, ⟨-, rfl⟩ | ⟨-, -, o, new, -, rfl⟩ | ⟨-, -, rfl⟩ | ⟨-, -, rfl⟩ | ⟨-, w, -, -, hexec⟩⟩ := step_effect h
  case inr.inl => exact ⟨new, rfl⟩
  case inr.inr.inr.inr => exact exec_extends_faults (s := (s.withSchedule ts).withInput ws) hexec
  all_goals exact ⟨[], (List.append_nil _).symm⟩

theorem step_count_faults_le {s t : State} (f : Fault) (h : step s = .next t) :
    s.faults.count f ≤ t.faults.count f := by
  obtain ⟨new, hnew⟩ := step_extends_faults h
  rw [hnew, List.count_append]
  exact Nat.le_add_right _ _

theorem run_count_faults_le {k : Nat} {s t : State} (f : Fault) (h : Host.Core.run core k s = .next t) :
    s.faults.count f ≤ t.faults.count f :=
  run_keeps (P := fun m => s.faults.count f ≤ m.faults.count f)
    (fun _ _ hm hn => hm.trans (step_count_faults_le f hn)) le_rfl h

/-- The first step records no overflow and neither does the rest of the run, since the count only grows. -/
theorem run_withoutBound {k : Nat} {t : State} :
    ∀ {s : State}, Host.Core.run core k s = .next t →
      t.faults.count .accumulatorOverflow = s.faults.count .accumulatorOverflow →
      Host.Core.run core k s.withoutBound = .next t.withoutBound := by
  induction k with
  | zero =>
    intro s h _
    cases h
    rfl
  | succ k ih =>
    intro s h hguard
    obtain ⟨m, hstep, hrun⟩ := run_succ h
    have hfirst := step_count_faults_le .accumulatorOverflow hstep
    have hrest := run_count_faults_le .accumulatorOverflow hrun
    rw [run_step (step_withoutBound (by omega) hstep)]
    exact ih hrun (by omega)

/-- Settles O9. -/
theorem unfiredGuardChangesNothing : Obligations.UnfiredGuardChangesNothing := by
  refine ⟨fun s b c hcap hovf hlen => ?_, fun k s t => run_withoutBound⟩
  have hfull : s.accFull = true := (accFull_iff s).2 (by rw [hcap, hlen])
  exact ⟨s.raiseOvf, exec_push_of_full hovf hfull b, rfl, rfl⟩

end Sys2Proof.Machine
end

section
/-!
PROOFS. The statements of 41_payload_extractor: the record each arm reads from a frame, what the read port shows of it,
the bytes an arm does not read, POP, when the result changes, that every step answers, and the reference scaling.
-/

namespace Sys2Proof.Machine

/-! ### Bytes and signed fields of a frame -/

theorem byteAt_eq_getElem {F : List Byte} {i : Nat} (h : i < F.length) : byteAt F i = F[i] := by
  simp [byteAt, h]

theorem fieldAt_eq_s16 {F : List Byte} {o p : Nat} (hp : p = o + 1) (h : p < F.length) :
    fieldAt F o = s16 F[o] F[p] := by
  subst hp
  rw [fieldAt, byteAt_eq_getElem, byteAt_eq_getElem]

theorem byteAt_congr {F G : List Byte} {i : Nat} (h : F[i]? = G[i]?) : byteAt F i = byteAt G i := by
  rw [byteAt, byteAt, List.getD_eq_getElem?_getD, List.getD_eq_getElem?_getD, h]

theorem fieldAt_congr {F G : List Byte} {o : Nat} (hhi : F[o]? = G[o]?) (hlo : F[o + 1]? = G[o + 1]?) :
    fieldAt F o = fieldAt G o := by
  rw [fieldAt, fieldAt, byteAt_congr hhi, byteAt_congr hlo]

/-- Frames that start with the same `n` bytes agree on each of them. -/
theorem getElem?_eq_of_take_eq {F G : List Byte} {n i : Nat} (h : F.take n = G.take n) (hi : i < n) :
    F[i]? = G[i]? := by
  rw [← List.getElem?_take_of_lt hi, h, List.getElem?_take_of_lt hi]

theorem fieldAt_eq_of_take_eq {F G : List Byte} {n o : Nat} (h : F.take n = G.take n) (ho : o + 1 < n) :
    fieldAt F o = fieldAt G o :=
  fieldAt_congr (getElem?_eq_of_take_eq h (by omega)) (getElem?_eq_of_take_eq h ho)

/-- The range of a signed 16-bit field (R148). -/
theorem fieldAt_bounds (F : List Byte) (o : Nat) : -32768 ≤ fieldAt F o ∧ fieldAt F o ≤ 32767 := by
  rw [fieldAt, s16_eq_toInt]
  have hlow := BitVec.le_toInt (byteAt F o ++ byteAt F (o + 1) : BitVec 16)
  have hhigh := BitVec.toInt_lt (x := (byteAt F o ++ byteAt F (o + 1) : BitVec 16))
  omega

/-- A signed field is read back as its two bytes, big-endian (10_state R36). -/
@[simp] theorem pattern16_fieldAt (F : List Byte) (o : Nat) : pattern16 (fieldAt F o) = pairAt F o := by
  obtain ⟨-, hpattern, -⟩ := s16IsTwosComplement (byteAt F o) (byteAt F (o + 1))
  exact hpattern

/-! ### The read port on the frame in the slot -/

section SlotReads

variable {s : State} {F : List Byte} {r : Result}

theorem result_of_slot (hslot : s.slot = some F) : s.result = extract F := by
  rw [State.result, hslot, Option.bind_some]

theorem rd_resultKind_of_slot (hslot : s.slot = some F) (hx : extract F = some r) (idx : BitVec 16) :
    rd s 3 idx = some (.word (resultCode (some r))) := by
  rw [rd_resultKind, result_of_slot hslot, hx]

/-- An index below 14 reads what the field table gives for the result of the frame (10_state R38). -/
theorem rd_field_of_slot (hslot : s.slot = some F) (hx : extract F = some r) {idx : BitVec 16} {v : ReadWord}
    (hidx : idx.toNat < 14) (hv : fieldOf F r idx.toNat = some v) : rd s 5 idx = some (.word v) := by
  rw [rd_field, State.field, if_neg (by omega), hslot, Option.bind_some, hx, Option.bind_some, hv, Option.map_some]

theorem rd_cell_of_slot {n : Nat} {cells : List Int} (hslot : s.slot = some F)
    (hx : extract F = some (.cell n cells)) (idx : BitVec 16) :
    rd s 6 idx = (cells[idx.toNat]?.map pattern16).map .word := by
  rw [rd_cell, State.cell, result_of_slot hslot, hx]

theorem rd_outByte_of_slot (hslot : s.slot = some F) {idx : BitVec 16} (hidx : idx.toNat < F.length) :
    rd s 4 idx = some (.word ((byteAt F idx.toNat).setWidth 16)) := by
  rw [byteAt_eq_getElem hidx, rd_outByte, State.outByte, hslot, Option.bind_some, List.getElem?_eq_getElem hidx]
  rfl

/-- CMD belongs to every kind and reads the command byte (10_state R38). -/
theorem rd_cmd_of_slot {c : Byte} (hslot : s.slot = some F) (hcmd : F[1]? = some c) :
    rd s 5 0 = some (.word (c.setWidth 16)) := by
  obtain ⟨r, hx, -⟩ := extract_of_command hcmd
  exact rd_field_of_slot hslot hx (by decide) (congrArg (Option.map zext16) hcmd)

/-- The arm the frame selects shows RESULT and changes nothing else, because a look runs it (R130, R131). -/
theorem exec_selectedArm {c : Byte} (hslot : s.slot = some F) (hcmd : F[1]? = some c) :
    exec (decodeCommand c) s = .next { s with observed := s.observed ++ [.result (extract F)] } := by
  rw [← lookTurn_of_command hslot hcmd, lookTurn_eq, result_of_slot hslot]
  rfl

end SlotReads

/-! ### Which arm gives a result -/

/-- Everything `Extract` can answer, by the command byte (R131). -/
theorem extract_cases {F : List Byte} {r : Result} (h : extract F = some r) :
    r = decBatt F ∨ r = decCell F ∨ r = decInfo F ∨ ∃ c, r = .unsupported c := by
  obtain ⟨c, hcmd, -⟩ := Option.bind_eq_some_iff.1 h
  rw [extract_eq_armResult hcmd] at h
  obtain rfl | rfl | rfl | hc := command_cases c
  · exact .inl (Option.some.inj h).symm
  · exact .inr (.inl (Option.some.inj h).symm)
  · exact .inr (.inr (.inl (Option.some.inj h).symm))
  · rw [decodeCommand_of_unsupported hc] at h
    exact .inr (.inr (.inr ⟨c, (Option.some.inj h).symm⟩))

/-! ### DEC.BATT -/

/-- The BATTERY record at the fixed offsets of R133. -/
def batteryRecord (F : List Byte) : BatteryState where
  voltageRaw := fieldAt F 4
  currentRaw := fieldAt F 6
  chargeRaw := fieldAt F 8
  fullRaw := fieldAt F 10
  status := byteAt F 24
  chargeOn := (byteAt F 24).getLsbD 0
  dischargeOn := (byteAt F 24).getLsbD 1
  temp1Raw := fieldAt F 27
  temp2Raw := fieldAt F 29

theorem decBatt_of_short {F : List Byte} (h : F.length < 31) : decBatt F = .truncated 0x03 :=
  dif_pos h

theorem decBatt_of_long {F : List Byte} (h : 31 ≤ F.length) : decBatt F = .battery (batteryRecord F) := by
  unfold decBatt batteryRecord statusChargeOn statusDischargeOn fieldAt
  rw [dif_neg (by omega)]
  simp (disch := omega) only [byteAt_eq_getElem]

/-- The other arms give no record, so a BATTERY result is the record of its frame (R131). -/
theorem eq_batteryRecord_of_extract {F : List Byte} {b : BatteryState} (h : extract F = some (.battery b)) :
    b = batteryRecord F := by
  obtain hr | hr | hr | ⟨c, hr⟩ := extract_cases h
  · obtain hlt | hge := Nat.lt_or_ge F.length 31
    · cases hr.trans (decBatt_of_short hlt)
    · exact Result.battery.inj (hr.trans (decBatt_of_long hge))
  · obtain hd | ⟨raw, hd⟩ | ⟨n, cells, hd⟩ := decCell_cases F <;> cases hr.trans hd
  · cases hr
  · cases hr

theorem extract_battery {F : List Byte} (hcmd : F[1]? = some 0x03) (hlen : 31 ≤ F.length) :
    extract F = some (.battery (batteryRecord F)) :=
  (extract_eq_armResult hcmd).trans (congrArg some (decBatt_of_long hlen))

/-- CHARGE_ON reads bit 0 of the status byte in 16 bits (10_state R38). -/
theorem bit16_getLsbD_zero (b : Byte) : bit16 (b.getLsbD 0) = (b &&& 1).setWidth 16 := by
  rw [show (1 : Byte) = 1#8 from rfl, BitVec.and_one_eq_setWidth_ofBool_getLsbD]
  cases b.getLsbD 0 <;> rfl

/-- DISCHARGE_ON reads bit 1, the lowest bit of the byte shifted right by one (10_state R38). -/
theorem bit16_getLsbD_one (b : Byte) : bit16 (b.getLsbD 1) = (b >>> 1 &&& 1).setWidth 16 := by
  rw [← bit16_getLsbD_zero, BitVec.getLsbD_ushiftRight]

/-- Settles O24. -/
theorem batteryFrameGivesItsFields : Obligations.BatteryFrameGivesItsFields := by
  intro F s hslot hcmd
  refine ⟨fun hlt => ?_, extract_battery hcmd, exec_selectedArm hslot hcmd, rd_cmd_of_slot hslot hcmd, fun hge => ?_⟩
  · have hx : extract F = some (.truncated 0x03) :=
      (extract_eq_armResult hcmd).trans (congrArg some (decBatt_of_short hlt))
    exact ⟨hx, rd_resultKind_of_slot hslot hx⟩
  · have hx := extract_battery hcmd hge
    have hfield {idx : BitVec 16} {v : ReadWord} : idx.toNat < 14 →
        fieldOf F (.battery (batteryRecord F)) idx.toNat = some v → rd s 5 idx = some (.word v) :=
      rd_field_of_slot hslot hx
    exact ⟨rd_resultKind_of_slot hslot hx,
      hfield (by decide) (congrArg some (pattern16_fieldAt F 4)),
      hfield (by decide) (congrArg some (pattern16_fieldAt F 6)),
      hfield (by decide) (congrArg some (pattern16_fieldAt F 8)),
      hfield (by decide) (congrArg some (pattern16_fieldAt F 10)),
      hfield (by decide) rfl,
      hfield (by decide) (congrArg some (bit16_getLsbD_zero _)),
      hfield (by decide) (congrArg some (bit16_getLsbD_one _)),
      hfield (by decide) (congrArg some (pattern16_fieldAt F 27)),
      hfield (by decide) (congrArg some (pattern16_fieldAt F 29))⟩

/-- A byte's bit 0 is its parity. -/
theorem getLsbD_zero_iff (b : Byte) : b.getLsbD 0 = true ↔ b.toNat % 2 = 1 := by
  simp [BitVec.getLsbD, Nat.testBit_zero]

theorem getLsbD_one_iff (b : Byte) : b.getLsbD 1 = true ↔ b.toNat / 2 % 2 = 1 := by
  simp [BitVec.getLsbD, Nat.testBit_succ]

/-- A battery frame whose status byte has the two flags and no other bit. -/
def flagFrame (chargeOn dischargeOn : Bool) : List Byte :=
  (frameForCommand 0x03).set 24 (0#6 ++ BitVec.ofBool dischargeOn ++ BitVec.ofBool chargeOn)

/-- Settles O31. -/
theorem batteryFlagsAreTheLowStatusBits : Obligations.BatteryFlagsAreTheLowStatusBits := by
  refine ⟨fun F b hx => ?_, fun c d => ⟨flagFrame c d, batteryRecord (flagFrame c d), ?_⟩⟩
  · obtain rfl := eq_batteryRecord_of_extract hx
    exact ⟨rfl, getLsbD_zero_iff _, getLsbD_one_iff _,
      fun s hslot => rd_field_of_slot hslot hx (by decide) rfl⟩
  · have hcloses : closes (flagFrame c d) = true := by cases c <;> cases d <;> rfl
    exact ⟨hcloses, extract_battery rfl (by simp [flagFrame, frameForCommand]),
      by cases c <;> cases d <;> rfl, by cases c <;> cases d <;> rfl⟩

/-! ### DEC.CELL -/

/-- The first `k` cells of a frame, in order (R136). -/
def cellsAt (F : List Byte) (k : Nat) : List Int := List.ofFn fun i : Fin k => fieldAt F (4 + 2 * i.val)

theorem getElem?_cellsAt {F : List Byte} {k i : Nat} (h : i < k) :
    (cellsAt F k)[i]? = some (fieldAt F (4 + 2 * i)) := by
  simp [cellsAt, h]

/-- The count of a frame that reaches byte 3 is the field at offset 2 (R135). -/
theorem countRaw_eq_fieldAt {F : List Byte} (h : 4 ≤ F.length) : countRaw F = some (fieldAt F 2) := by
  match F, h with
  | _ :: _ :: hi :: lo :: _, _ => rfl

theorem countRaw_eq_none {F : List Byte} (h : F.length < 4) : countRaw F = none := by
  match F, h with
  | [], _ | [_], _ | [_, _], _ | [_, _, _], _ => rfl

/-- A count is refused as negative or odd, or it is twice the number of the cells (R135). -/
theorem count_cases (raw : Int) : (raw < 0 ∨ raw % 2 = 1) ∨ ∃ k : Nat, raw = 2 * k := by
  by_cases hbad : raw < 0 ∨ raw % 2 = 1
  · exact .inl hbad
  · exact .inr ⟨(raw / 2).toNat, by omega⟩

theorem decCell_of_badCount {F : List Byte} (h : 4 ≤ F.length) (hbad : fieldAt F 2 < 0 ∨ fieldAt F 2 % 2 = 1) :
    decCell F = .badCount 0x04 (fieldAt F 2) := by
  simp only [decCell, countRaw_eq_fieldAt h, if_pos hbad]

/-- A count of `2 * k` gives TRUNCATED or the `k` cells, by the length of the frame (R135, R136). -/
theorem decCell_of_count {F : List Byte} {k : Nat} (h : 4 ≤ F.length) (hk : fieldAt F 2 = 2 * k) :
    decCell F = if F.length < 4 + 2 * k then .truncated 0x04 else .cell k (cellsAt F k) := by
  have hgood : ¬(fieldAt F 2 < 0 ∨ fieldAt F 2 % 2 = 1) := by omega
  have hcount : (fieldAt F 2 / 2).toNat = k := by omega
  simp only [decCell, countRaw_eq_fieldAt h, if_neg hgood]
  subst hcount
  split
  · rfl
  next hlong =>
    refine congrArg _ (congrArg _ (funext fun i => ?_))
    have hi := i.isLt
    exact (fieldAt_eq_s16 (by omega) (by omega)).symm

/-- Everything DEC.CELL can give, with the count and the length that lead to it. -/
theorem decCell_eq_cases (F : List Byte) :
    decCell F = .truncated 0x04 ∨ decCell F = .badCount 0x04 (fieldAt F 2) ∨
      ∃ k : Nat, fieldAt F 2 = 2 * k ∧ decCell F = .cell k (cellsAt F k) := by
  obtain hshort | hlong := Nat.lt_or_ge F.length 4
  · simp [decCell, countRaw_eq_none hshort]
  obtain hbad | ⟨k, hk⟩ := count_cases (fieldAt F 2)
  · exact .inr (.inl (decCell_of_badCount hlong hbad))
  · rw [decCell_of_count hlong hk]
    split
    · exact .inl rfl
    · exact .inr (.inr ⟨k, hk, rfl⟩)

/-- COUNT_RAW belongs to every kind DEC.CELL gives (10_state R38). -/
theorem fieldOf_countRaw_decCell (F : List Byte) : fieldOf F (decCell F) 11 = (countRaw F).map pattern16 := by
  obtain hd | hd | ⟨k, -, hd⟩ := decCell_eq_cases F <;> rw [hd] <;> rfl

/-- A count fits its 16 bits, so at most 16383 cells follow it (R148). -/
theorem cellCount_le {F : List Byte} {k : Nat} (hk : fieldAt F 2 = 2 * k) : k ≤ 16383 := by
  have hbounds := fieldAt_bounds F 2
  omega

/-- Settles O25. -/
theorem cellFrameGivesItsCells : Obligations.CellFrameGivesItsCells := by
  intro F s hslot hcmd hlen
  have hx : extract F = some (decCell F) := extract_eq_armResult hcmd
  have hkind : ∀ idx, rd s 3 idx = some (.word (resultCode (some (decCell F)))) := rd_resultKind_of_slot hslot hx
  refine ⟨fun hbad => ?_, fun k hk hshort => ?_, fun k hk hlong => ?_, rd_cmd_of_slot hslot hcmd, ?_,
    exec_selectedArm hslot hcmd⟩
  · rw [decCell_of_badCount (by omega) hbad] at hx hkind
    exact ⟨hx, hkind⟩
  · rw [decCell_of_count (by omega) hk, if_pos hshort] at hx hkind
    exact ⟨hx, hkind⟩
  · rw [decCell_of_count (by omega) hk, if_neg (by omega)] at hx hkind
    refine ⟨⟨cellsAt F k, hx, List.length_ofFn, fun i => getElem?_cellsAt⟩, hkind, ?_, fun i hi => ?_⟩
    · exact rd_field_of_slot hslot hx (by decide) rfl
    · have hk' := cellCount_le hk
      rw [rd_cell_of_slot hslot hx, toNat_ofNat_length (by omega), getElem?_cellsAt hi]
      simp
  · refine rd_field_of_slot hslot hx (by decide) ((fieldOf_countRaw_decCell F).trans ?_)
    rw [countRaw_eq_fieldAt (by omega), Option.map_some, pattern16_fieldAt]

/-! ### DEC.INFO -/

theorem extract_info {F : List Byte} (hcmd : F[1]? = some 0x05) :
    extract F = some (.info (slice F 4 (F.length - 4))) :=
  extract_eq_armResult hcmd

theorem length_slice {L : List Byte} {a b : Nat} (h : b ≤ L.length) : (slice L a b).length = b - a := by
  rw [slice, List.length_drop, List.length_take, Nat.min_eq_left h]

theorem getElem?_slice {L : List Byte} {a b i : Nat} (h : a + i < b) : (slice L a b)[i]? = L[a + i]? := by
  rw [slice, List.getElem?_drop, List.getElem?_take_of_lt h]

/-- Settles O26. -/
theorem infoFrameGivesItsName : Obligations.InfoFrameGivesItsName := by
  intro F s hslot hcmd
  have hx := extract_info hcmd
  refine ⟨⟨_, hx, ?_, fun i hi => getElem?_slice (by omega)⟩, exec_selectedArm hslot hcmd,
    rd_resultKind_of_slot hslot hx, rd_cmd_of_slot hslot hcmd, ?_, fun hle => ?_, fun i => rd_outByte_of_slot hslot⟩
  · rw [length_slice (by omega)]
    omega
  · exact rd_field_of_slot hslot hx (by decide) rfl
  · have hname : nameLen F = BitVec.ofNat 16 (F.length - 8) := if_pos (by omega)
    exact rd_field_of_slot hslot hx (by decide) (congrArg some hname)

/-! ### DEC.UNSUPPORTED -/

theorem isSupportedCommand_eq_false {c : Byte} (h3 : c ≠ 3) (h4 : c ≠ 4) (h5 : c ≠ 5) :
    isSupportedCommand c = false := by
  obtain rfl | rfl | rfl | hc := command_cases c
  · exact absurd rfl h3
  · exact absurd rfl h4
  · exact absurd rfl h5
  · exact hc

/-- Settles O27. -/
theorem otherCommandIsUnsupported : Obligations.OtherCommandIsUnsupported := by
  intro F c s hslot hcmd h3 h4 h5
  have hc := isSupportedCommand_eq_false h3 h4 h5
  have hx := extract_of_unsupported hcmd hc
  refine ⟨hx, ?_, rd_resultKind_of_slot hslot hx, rd_cmd_of_slot hslot hcmd⟩
  rw [← decodeCommand_of_unsupported hc, exec_selectedArm hslot hcmd, hx]

/-! ### Every result -/

/-- The cells and counts that `Extract` shows are those DEC.CELL reads, since the other arms give neither (R131). -/
theorem decCell_eq_of_extract {F : List Byte} {r : Result} (h : extract F = some r)
    (hkind : resultCode (some r) = 2 ∨ resultCode (some r) = 6) : decCell F = r := by
  obtain rfl | rfl | rfl | ⟨c, rfl⟩ := extract_cases h
  · obtain hd | ⟨b, hd⟩ := decBatt_cases F <;> rw [hd] at hkind <;> simp [resultCode] at hkind
  · rfl
  · simp [decInfo, resultCode] at hkind
  · simp [resultCode] at hkind

/-- Settles O29: every number of a result is a signed field of its frame, and a count is twice the number of cells. -/
theorem resultFieldsAreInRange : Obligations.ResultFieldsAreInRange := by
  refine ⟨fun F b hx => ?_, fun F n cells hx => ?_, fun F c raw hx => ?_⟩
  · rw [eq_batteryRecord_of_extract hx]
    simp [batteryRecord, fieldAt_bounds]
  · have hd := decCell_eq_of_extract hx (.inl rfl)
    obtain he | he | ⟨k, hk, he⟩ := decCell_eq_cases F <;> cases hd.symm.trans he
    refine ⟨List.length_ofFn, cellCount_le hk, fun v hv => ?_⟩
    obtain ⟨i, rfl⟩ := List.mem_ofFn.1 hv
    exact fieldAt_bounds F _
  · have hd := decCell_eq_of_extract hx (.inr rfl)
    obtain he | he | ⟨k, -, he⟩ := decCell_eq_cases F <;> cases hd.symm.trans he
    exact fieldAt_bounds F 2

/-- The record depends on the bytes of its fields alone (R142). -/
theorem batteryRecord_congr {F G : List Byte}
    (h : ∀ o ∈ [4, 5, 6, 7, 8, 9, 10, 11, 24, 27, 28, 29, 30], F[o]? = G[o]?) : batteryRecord F = batteryRecord G := by
  have hbyte : byteAt F 24 = byteAt G 24 := byteAt_congr (h 24 (by decide))
  have hfield : ∀ o ∈ [4, 6, 8, 10, 27, 29], fieldAt F o = fieldAt G o := fun o ho =>
    fieldAt_congr (h o (by revert o; decide)) (h (o + 1) (by revert o; decide))
  simp [batteryRecord, hbyte, hfield]

/-- The cells depend on the bytes up to the last one alone (R142). -/
theorem cellsAt_congr {F G : List Byte} {k : Nat} (h : F.take (4 + 2 * k) = G.take (4 + 2 * k)) :
    cellsAt F k = cellsAt G k :=
  congrArg List.ofFn (funext fun i => fieldAt_eq_of_take_eq h (by omega))

theorem extract_cell {F : List Byte} {k : Nat} (hcmd : F[1]? = some 0x04) (hk : fieldAt F 2 = 2 * k)
    (hlen : 4 + 2 * k ≤ F.length) : extract F = some (.cell k (cellsAt F k)) := by
  have hd : decCell F = .cell k (cellsAt F k) := by rw [decCell_of_count (by omega) hk, if_neg (by omega)]
  exact (extract_eq_armResult hcmd).trans (congrArg some hd)

/-- Settles O30: the frames have the same command byte, and its arm reads the same bytes of both. -/
theorem unreadBytesDoNotAffectTheResult : Obligations.UnreadBytesDoNotAffectTheResult := by
  refine ⟨fun F G hF hG hlenF hlenG hagree => ?_, fun F G k hF hk hlenF htake => ?_,
    fun F G hF hlen hlong htake => ?_, fun F G c hF hG hc => ?_⟩
  · rw [extract_battery hF hlenF, extract_battery hG hlenG, batteryRecord_congr hagree]
  · have hG : G[1]? = some 0x04 := (getElem?_eq_of_take_eq htake (by omega)).symm.trans hF
    have hkG : fieldAt G 2 = 2 * k := (fieldAt_eq_of_take_eq htake (by omega)).symm.trans hk
    have hlenG : 4 + 2 * k ≤ G.length := by
      have hlens := congrArg List.length htake
      rw [List.length_take, List.length_take] at hlens
      omega
    rw [extract_cell hF hk hlenF, extract_cell hG hkG hlenG, cellsAt_congr htake]
  · have hG : G[1]? = some 0x05 := by
      rw [← hlen] at htake
      exact (getElem?_eq_of_take_eq htake (by omega)).symm.trans hF
    rw [extract_info hF, extract_info hG, slice, slice, htake]
  · rw [extract_of_unsupported hF hc, extract_of_unsupported hG hc]

/-! ### Looks, arms that are not selected, and POP -/

/-- Settles O32. -/
theorem lookingAtResultWritesNothing : Obligations.LookingAtResultWritesNothing := by
  intro s ts hsch
  refine ⟨?_, rfl⟩
  rw [step_cons hsch, takeTurn, consumerTurn, lookTurn_eq]
  rfl

/-- A frame that selects the arm of a command byte has that byte (R131). -/
theorem command_of_selects {i : Instr} {F : List Byte} {c : Byte} (henc : encode i = .command c)
    (h : selects i F = true) : F[1]? = some c := by
  obtain ⟨cmd, hcmd, rfl⟩ : ∃ cmd, F[1]? = some cmd ∧ decodeCommand cmd = i := by simpa [selects] using h
  rw [hcmd, Encoding.command.inj ((encode_decodeCommand cmd).1.symm.trans henc)]

/-- An arm changes nothing while the slot holds no frame with its command byte. -/
theorem runArm_unselected {i : Instr} {c : Byte} (henc : encode i = .command c) (arm : List Byte → Result) {s : State}
    (h : (s.slot.bind fun F => F[1]?) ≠ some c) : runArm i arm s = .next s := by
  unfold runArm
  cases hs : s.slot with
  | none => rfl
  | some F =>
    rw [hs, Option.bind_some] at h
    exact if_neg fun hsel => h (command_of_selects henc hsel)

/-- Settles O33. -/
theorem unselectedArmChangesNothing : Obligations.UnselectedArmChangesNothing := fun _ =>
  ⟨runArm_unselected rfl _, runArm_unselected rfl _, runArm_unselected rfl _, fun _ => runArm_unselected rfl _⟩

/-- Settles O34. -/
theorem popEmptiesTheSlotAlone : Obligations.PopEmptiesTheSlotAlone := by
  refine ⟨fun s => ⟨rfl, rfl⟩, fun s hslot => ?_, fun s ts hsch => step_cons hsch⟩
  change Host.Outcome.next { s with slot := none } = _
  rw [← hslot]

/-! ### The result follows the slot -/

/-- The codes of the six kinds (30_encoding R90). -/
theorem resultCode_bounds (r : Result) :
    1 ≤ (resultCode (some r)).toNat ∧ (resultCode (some r)).toNat ≤ 6 := by
  cases r <;> simp [resultCode]

/-- A frame that closes has a result (R141). -/
theorem extract_of_closes {F : List Byte} (h : closes F = true) : ∃ r, extract F = some r := by
  obtain ⟨r, hr, -⟩ := extract_of_command (getElem?_one_of_closes h)
  exact ⟨r, hr⟩

/-- POP has no word on the input port (30_encoding R78). -/
theorem decodeWord_ne_pop (w : OpWord) : decodeWord w ≠ .pop := by
  intro h
  have henc : Encoding.strobe = .word w := by
    rw [← (encode_decodeWord w).1, h]
    rfl
  cases henc

/-- A step changes the slot in a reset turn, in a POP turn, or by an accepted EOC or CLR (R144). -/
theorem step_changes_slot {s t : State} (h : step s = .next t) (hne : t.slot ≠ s.slot) :
    s.schedule.head? = some .reset ∨ s.schedule.head? = some (.consumer .pop) ∨
    (s.schedule.head? = some .producer ∧
      ∃ w ws, s.input = w :: ws ∧ (decodeWord w = .eoc ∨ decodeWord w = .clr)) := by
  obtain ⟨ws, ts, ⟨-, rfl⟩ | ⟨-, -, o, new, -, rfl⟩ | ⟨-, hpop, -⟩ | ⟨-, hreset, -⟩ | ⟨hprod, w, hin, -, hexec⟩⟩ :=
    step_effect h
  · exact absurd rfl hne
  · exact absurd rfl hne
  · exact .inr (.inl hpop)
  · exact .inl hreset
  · obtain ⟨-, -, -, -, hslot, -⟩ := operationsKeepTheirFrame _ _ _ hexec
    obtain heoc | hclr | hpop := hslot hne
    · exact .inr (.inr ⟨hprod, w, ws, hin, .inl heoc⟩)
    · exact .inr (.inr ⟨hprod, w, ws, hin, .inr hclr⟩)
    · exact absurd hpop (decodeWord_ne_pop w)

/-- Settles O38. -/
theorem resultKindFollowsTheSlot : Obligations.ResultKindFollowsTheSlot := by
  refine ⟨fun s idx hok => ⟨_, rd_resultKind s idx, ?_⟩, fun s t _ hne hslot => hne ?_, fun s t => step_changes_slot⟩
  · cases hs : s.slot with
    | none => simp [State.result, hs, resultCode]
    | some F =>
      obtain ⟨r, hr⟩ := extract_of_closes ((slotOk_iff s).1 hok F hs).1
      rw [result_of_slot hs, hr]
      have hcode := resultCode_bounds r
      refine ⟨iff_of_false (fun h0 => ?_) (by simp), fun _ => hcode⟩
      rw [h0] at hcode
      exact absurd hcode.1 (by decide)
  · rw [State.result, State.result, hslot]

/-! ### Every step answers -/

theorem runArm_answers (i : Instr) (arm : List Byte → Result) (s : State) : ∃ t, runArm i arm s = .next t := by
  unfold runArm
  cases s.slot with
  | none => exact ⟨_, rfl⟩
  | some F =>
    dsimp only
    split
    · exact ⟨_, rfl⟩
    · exact ⟨_, rfl⟩

/-- No operation ends in a fault or a refusal (60_exceptions R198). -/
theorem exec_answers (i : Instr) (s : State) : ∃ t, exec i s = .next t := by
  cases i
  case push b =>
    cases hovf : s.ovf with
    | true => exact ⟨_, exec_push_of_ovf hovf b⟩
    | false =>
      cases hfull : s.accFull with
      | true => exact ⟨_, exec_push_of_full hovf hfull b⟩
      | false => exact ⟨_, exec_push_of_room hovf hfull b⟩
  case eoc =>
    cases hovf : s.ovf with
    | true => exact ⟨_, (exec_eoc_of_ovf hovf).1⟩
    | false =>
      cases hslot : s.slot with
      | none => exact ⟨_, exec_eoc_eq_feed hovf hslot⟩
      | some F => exact ⟨_, (exec_eoc_of_slot hovf hslot).1⟩
  case decBatt => exact runArm_answers ..
  case decCell => exact runArm_answers ..
  case decInfo => exact runArm_answers ..
  case decUnsupported c => exact runArm_answers ..
  all_goals exact ⟨_, rfl⟩

theorem producerTurn_answers (s : State) : ∃ t, producerTurn s = .next t := by
  cases hin : s.input with
  | nil => exact ⟨_, producerTurn_nil hin⟩
  | cons w ws =>
    rw [producerTurn_cons hin]
    split
    · exact ⟨_, rfl⟩
    · exact exec_answers _ _

theorem takeTurn_answers (u : Turn) (s : State) : ∃ t, takeTurn u s = .next t := by
  cases u with
  | producer => exact producerTurn_answers s
  | consumer a =>
    cases a with
    | read sel idx => exact ⟨_, rfl⟩
    | look => exact ⟨_, lookTurn_eq s⟩
    | pop => exact ⟨_, rfl⟩
  | reset => exact ⟨_, rfl⟩

theorem step_answers (s : State) : ∃ t, step s = .next t := by
  cases hsch : s.schedule with
  | nil => exact ⟨_, step_nil hsch⟩
  | cons u ts =>
    rw [step_cons hsch]
    exact takeTurn_answers u _

/-- Settles O47, by induction on the number of steps. -/
theorem stepAlwaysAnswersANextState : Obligations.StepAlwaysAnswersANextState := by
  refine ⟨step_answers, fun k => ?_⟩
  induction k with
  | zero => exact fun s => ⟨s, run_zero s⟩
  | succ k ih =>
    intro s
    obtain ⟨m, hm⟩ := step_answers s
    rw [run_step hm]
    exact ih m

/-! ### The reference scaling -/

/-- Settles O60. -/
theorem scalingIsExact : Obligations.ScalingIsExact := by
  intro raw
  have hcelsius : celsius raw = (centidegrees raw : ℚ) / 100 := by
    simp only [celsius, centidegrees]
    push_cast
    ring
  refine ⟨rfl, rfl, ?_, hcelsius, rfl, rfl, rfl, ?_, rfl, rfl, rfl⟩
  · rw [celsius]
    norm_num
  · rw [numcellsOfRaw]
    ring

end Sys2Proof.Machine
end

section
/-!
PROOFS. The statements of 42_command_table: the bytes each ENC operation sends, and its independence of the decoder.
-/

namespace Sys2Proof.Machine

theorem commandInstr_ne_eoc (n : CommandName) : n.instr ≠ .eoc := by
  cases n <;> decide

/-- The port never holds an ENC: only an EOC is ever held (30_encoding R72, 42_command_table R180). -/
theorem holds_commandInstr (n : CommandName) (s : State) : holds n.instr s = false :=
  eq_false_of_ne_true fun h => commandInstr_ne_eoc n ((holds_iff n.instr s).mp h).1

/-- ENC has one outcome in every state: its sequence after what TX held (42_command_table R170, R180). -/
theorem eq_txSend_of_exec_commandInstr {n : CommandName} {s t : State} (h : exec n.instr s = .next t) :
    t = s.txSend (cmdRom n) := by
  simpa using h.symm

/-- A command's operation sends the command's row of `CMD_ROM`, whose trailer is the one R85 gives. What is left of a
rule of the table are its numbers: the word and the trailer. -/
theorem encSends_commandInstr (n : CommandName) {w : OpWord} {check : Nat} (hword : encWord n = w)
    (htrailer : trailer (cmdRom n) = check) : encSends n.instr w (cmdRom n) check := by
  subst hword htrailer
  exact ⟨encode_commandInstr n, decodeWord_encWord n, (trailer_cmdRom n).symm, rfl,
    fun s => ⟨exec_commandInstr n s, holds_commandInstr n s⟩⟩

/-- Settles O19: each rule is `encSends_commandInstr` at its command, with its word and its trailer check. -/
theorem encSendsItsTableSequence : Obligations.EncSendsItsTableSequence :=
  ⟨encSends_commandInstr .dischargeOn (by decide) (by decide),
    encSends_commandInstr .dischargeOff (by decide) (by decide),
    encSends_commandInstr .chargeOn (by decide) (by decide),
    encSends_commandInstr .chargeOff (by decide) (by decide),
    encSends_commandInstr .requestRead (by decide) (by decide),
    encSends_commandInstr .requestCellVoltage (by decide) (by decide),
    encSends_commandInstr .requestInfo (by decide) (by decide)⟩

/-- Settles O21: from both states the operation appends the constant row of `CMD_ROM`. -/
theorem encIsIndependentOfTheDecoder : Obligations.EncIsIndependentOfTheDecoder := by
  intro n s t h
  obtain rfl := eq_txSend_of_exec_commandInstr h
  refine ⟨holds_commandInstr n s, rfl, fun s' t' h' => ⟨cmdRom n, rfl, ?_⟩⟩
  rw [eq_txSend_of_exec_commandInstr h', State.txSend_tx]

end Sys2Proof.Machine
end

section
/-!
PROOFS. The statements of 60_exceptions: the order in which `Extract` chooses its one result, and the record of the
flags' faults.
-/

namespace Sys2Proof.Machine

/-! ### One result per frame, in the order of R195 -/

theorem extract_of_shortBattery {F : List Byte} (hcmd : F[1]? = some 0x03) (hlen : F.length < 31) :
    extract F = some (.truncated 0x03) :=
  (extract_eq_armResult hcmd).trans (congrArg some (decBatt_of_short hlen))

theorem extract_of_badCount {F : List Byte} (hcmd : F[1]? = some 0x04) (hlen : 4 ≤ F.length)
    (hbad : fieldAt F 2 < 0 ∨ fieldAt F 2 % 2 = 1) : extract F = some (.badCount 0x04 (fieldAt F 2)) :=
  (extract_eq_armResult hcmd).trans (congrArg some (decCell_of_badCount hlen hbad))

/-- A frame whose count is good and that ends before its last cell is TRUNCATED (R135). -/
theorem extract_of_missingCells {F : List Byte} {k : Nat} (hcmd : F[1]? = some 0x04) (hlen : 4 ≤ F.length)
    (hk : fieldAt F 2 = 2 * k) (hshort : F.length < 4 + 2 * k) : extract F = some (.truncated 0x04) := by
  have hd : decCell F = .truncated 0x04 := by rw [decCell_of_count hlen hk, if_pos hshort]
  exact (extract_eq_armResult hcmd).trans (congrArg some hd)

/-- Settles O28: `Extract` is a function, so the result it has is the one that each clause names. -/
theorem everyFrameHasOneResultInPriorityOrder : Obligations.EveryFrameHasOneResultInPriorityOrder := by
  intro F c hcloses hcmd
  obtain ⟨hlen, -, -⟩ := (closes_iff F).1 hcloses
  obtain ⟨r, hr⟩ := extract_of_closes hcloses
  have heq {x : Result} (hx : extract F = some x) : r = x := Option.some.inj (hr.symm.trans hx)
  refine ⟨r, hr, fun hc => heq (extract_of_unsupported hcmd hc), ?_, ?_, ?_, ?_, ?_, ?_⟩
  · rintro - rfl hbad
    exact heq (extract_of_badCount hcmd (by omega) hbad)
  · rintro - rfl hgood hshort
    obtain ⟨k, hk⟩ := (count_cases _).resolve_left hgood
    exact heq (extract_of_missingCells hcmd (by omega) hk (by omega))
  · rintro rfl hshort
    exact heq (extract_of_shortBattery hcmd hshort)
  · rintro rfl hlong
    exact ⟨_, heq (extract_battery hcmd hlong)⟩
  · rintro rfl hgood hlong
    obtain ⟨k, hk⟩ := (count_cases _).resolve_left hgood
    exact ⟨_, _, heq (extract_cell hcmd hk (by omega))⟩
  · rintro rfl
    exact ⟨_, heq (extract_info hcmd)⟩

/-! ### The flags' faults are on record -/

/-- Where no flag is newly set, a longer record still holds the flags' faults (R200). -/
theorem flagsRecorded_of_no_new_flag {s t : State} (hrec : s.flagsRecorded) (hovf : t.ovf = true → s.ovf = true)
    (hill : t.ill = true → s.ill = true) (hfaults : ∃ new, t.faults = s.faults ++ new) : t.flagsRecorded := by
  obtain ⟨hrecOvf, hrecIll⟩ := hrec
  obtain ⟨new, hnew⟩ := hfaults
  rw [State.flagsRecorded, hnew]
  exact ⟨fun h => List.mem_append_left _ (hrecOvf (hovf h)), fun h => List.mem_append_left _ (hrecIll (hill h))⟩

/-- The PUSH whose guard fires and the illegal word record the fault of the flag they set; no other operation sets
one (40_frame_decoder R105, R106). -/
theorem exec_keeps_flagsRecorded {i : Instr} {s t : State} (hrec : s.flagsRecorded) (h : exec i s = .next t) :
    t.flagsRecorded := by
  have hfaults := exec_extends_faults h
  have ⟨hrecOvf, hrecIll⟩ := hrec
  obtain rfl | ⟨b, -, -, -, rfl⟩ | ⟨b, -, -, -, rfl⟩ | ⟨-, -, -, -, rfl⟩ | ⟨-, rfl⟩ | ⟨w, -, rfl⟩ | ⟨n, -, rfl⟩ |
    ⟨-, rfl⟩ | ⟨F, r, -, -, -, rfl⟩ := exec_cases h
  case inr.inl => exact ⟨fun _ => by simp, fun hill => List.mem_append_left _ (hrecIll hill)⟩
  case inr.inr.inr.inr.inr.inl => exact ⟨fun hovf => List.mem_append_left _ (hrecOvf hovf), fun _ => by simp⟩
  case inr.inr.inr.inr.inl => exact flagsRecorded_of_no_new_flag hrec nofun nofun hfaults
  all_goals exact flagsRecorded_of_no_new_flag hrec id id hfaults

/-- The ports set no flag, and the offered word is run on a state with the same flags and record. -/
theorem step_keeps_flagsRecorded {s t : State} (hrec : s.flagsRecorded) (h : step s = .next t) : t.flagsRecorded := by
  obtain ⟨-, hovf, hill⟩ | ⟨-, hovf, hill⟩ | ⟨-, w, ws, ts, -, hexec⟩ := step_decoder_cases h
  · exact flagsRecorded_of_no_new_flag hrec hovf.symm.trans hill.symm.trans (step_extends_faults h)
  · exact flagsRecorded_of_no_new_flag hrec (by simp [hovf]) (by simp [hill]) (step_extends_faults h)
  · exact exec_keeps_flagsRecorded (s := (s.withSchedule ts).withInput ws) hrec hexec

/-- Settles O52: an empty record was lengthened from an empty one. -/
theorem flagsAreRecordedAsFaults : Obligations.FlagsAreRecordedAsFaults := by
  intro s t h
  obtain ⟨new, hnew⟩ := step_extends_faults h
  refine ⟨fun hrec => step_keeps_flagsRecorded hrec h, ⟨new, hnew⟩, fun hfinal => ?_⟩
  have hempty : t.faults = [] := by simpa [State.isFinal] using hfinal
  have hs : s.faults = [] := (List.append_eq_nil_iff.1 (hnew.symm.trans hempty)).1
  simpa [State.isFinal] using hs

end Sys2Proof.Machine
end

section
/-!
PROOFS. The statements of 70_reset_and_hazards: the stall behind a full slot, acceptance under weak fairness, the reset
input, the producer's duties, and the reads after a POP.
-/

namespace Sys2Proof.Machine

/-! ### The stall behind a full slot -/

/-- The hold of a word depends on OVF and the slot alone (30_encoding R72). -/
theorem holds_congr {s t : State} (hovf : t.ovf = s.ovf) (hslot : t.slot = s.slot) (i : Instr) :
    holds i t = holds i s := by
  rw [holds, holds, hovf, hslot]

/-- What a run leaves as it was in `s` while a held EOC stalls the producer: the offered words, the slot, ACC, TX and
OVF, with neither a POP nor a reset to come. -/
structure StalledAs (s m : State) : Prop where
  input : m.input = s.input
  slot : m.slot = s.slot
  acc : m.acc = s.acc
  tx : m.tx = s.tx
  ovf : m.ovf = s.ovf
  noReset : noReset m.schedule = true
  noPop : .consumer .pop ∉ m.schedule

/-- With the offered EOC held, the turns that remain are the waiting producer's, a read and a look. -/
theorem step_keeps_stalledAs {s m t : State} {ws : List OpWord} (hin : s.input = eocWord :: ws)
    (hheld : holds .eoc s = true) (hm : StalledAs s m) (h : step m = .next t) : StalledAs s t := by
  have hreset := noReset_step hm.noReset h
  have hpop : .consumer .pop ∉ t.schedule := by
    rw [step_schedule h]
    exact fun hmem => hm.noPop (List.mem_of_mem_tail hmem)
  obtain ⟨us, ts, ⟨rfl, rfl⟩ | ⟨rfl, -, o, new, -, rfl⟩ | ⟨-, hhead, -⟩ | ⟨-, hhead, -⟩ | ⟨-, w, hw, hfree, -⟩⟩ :=
    step_effect h
  · exact ⟨hm.input, hm.slot, hm.acc, hm.tx, hm.ovf, hreset, hpop⟩
  · exact ⟨hm.input, hm.slot, hm.acc, hm.tx, hm.ovf, hreset, hpop⟩
  · exact absurd (List.mem_of_mem_head? hhead) hm.noPop
  · exact absurd hhead (noReset_head hm.noReset)
  · obtain ⟨rfl, -⟩ := List.cons.inj (hin.symm.trans (hm.input.symm.trans hw))
    rw [decodeWord_eocWord, holds_congr hm.ovf hm.slot, hheld] at hfree
    cases hfree

/-- Settles O45. -/
theorem fullSlotStallsTheProducer : Obligations.FullSlotStallsTheProducer := by
  intro k s t ws hin hheld hreset hpop hrun
  have ht : StalledAs s t :=
    run_keeps (P := StalledAs s) (fun _ _ => step_keeps_stalledAs hin hheld) ⟨rfl, rfl, rfl, rfl, rfl, hreset, hpop⟩ hrun
  exact ⟨ht.input, ht.slot, ht.acc, ht.tx⟩

/-! ### Acceptance under weak fairness -/

/-- A turn of an infinite run is the step of a state with that turn scheduled first. -/
theorem step_scheduled (u : Turn) (s : State) : step (s.withSchedule (u :: s.schedule)) = takeTurn u s :=
  step_cons rfl

/-- A turn leaves the offered words, or takes the first one. -/
theorem takeTurn_input {u : Turn} {s t : State} (h : takeTurn u s = .next t) :
    t.input = s.input ∨ ∃ w, s.input = w :: t.input := by
  rw [← step_scheduled] at h
  exact (step_input h).imp_right fun ⟨w, hw, _⟩ => ⟨w, hw⟩

/-- A turn that takes no word fills no slot. -/
theorem takeTurn_keeps_empty_slot {u : Turn} {s t : State} (h : takeTurn u s = .next t) (hin : t.input = s.input)
    (hslot : s.slot = none) : t.slot = none := by
  rw [← step_scheduled] at h
  obtain ⟨ws, ts, ⟨-, rfl⟩ | ⟨-, -, o, new, -, rfl⟩ | ⟨-, -, rfl⟩ | ⟨-, -, rfl⟩ | ⟨-, w, hw, -, hexec⟩⟩ := step_effect h
  · exact hslot
  · exact hslot
  · rfl
  · rfl
  · have hrest : t.input = ws := exec_keeps_input hexec
    have htaken : s.input = w :: ws := hw
    rw [htaken, hrest] at hin
    exact absurd hin.symm (List.cons_ne_self w ws)

theorem popTurn_empties_slot {s t : State} (h : takeTurn (.consumer .pop) s = .next t) : t.slot = none := by
  cases h
  rfl

/-- With the slot empty, a producer turn takes the offered word, whichever it is (30_encoding R72). -/
theorem producerTurn_accepts_of_empty_slot {s t : State} {w : OpWord} {ws : List OpWord} (hin : s.input = w :: ws)
    (hslot : s.slot = none) (h : takeTurn .producer s = .next t) : t.input = ws := by
  have hfree : holds (decodeWord w) s = false := by simp [holds, hslot]
  rw [takeTurn, producerTurn_cons hin, hfree] at h
  exact exec_keeps_input h

section InfiniteRun

variable {σ : Nat → Turn} {r : Nat → State} (hrun : IsRun σ r)
include hrun

/-- A word that is not accepted later stays offered for ever. -/
theorem offered_of_never_accepted {n : Nat} {w : OpWord} {ws : List OpWord} (hin : (r n).input = w :: ws)
    (hnever : ∀ m, n < m → (r m).input ≠ ws) {m : Nat} (hm : n ≤ m) : (r m).input = w :: ws := by
  induction m, hm using Nat.le_induction with
  | base => exact hin
  | succ m hm ih =>
    obtain hstay | ⟨v, hv⟩ := takeTurn_input (hrun m)
    · rw [hstay, ih]
    · exact absurd (List.cons.inj (ih.symm.trans hv)).2.symm (hnever (m + 1) (by omega))

/-- An empty slot stays empty while the same words stay offered. -/
theorem slot_empty_of_offered {p : Nat} {offered : List OpWord} (hslot : (r p).slot = none)
    (hin : ∀ m, p ≤ m → (r m).input = offered) {m : Nat} (hm : p ≤ m) : (r m).slot = none := by
  induction m, hm using Nat.le_induction with
  | base => exact hslot
  | succ m hm ih => exact takeTurn_keeps_empty_slot (hrun m) ((hin _ (by omega)).trans (hin m hm).symm) ih

end InfiniteRun

/-- Settles O46: were the word never accepted, a POP would leave the slot empty for ever, and the producer's next turn
would accept the word. -/
theorem fairRunsAcceptEveryWord : Obligations.FairRunsAcceptEveryWord := by
  rintro σ r hrun ⟨hproducer, hconsumer⟩ n w ws hin
  by_contra hno
  have hnever : ∀ m, n < m → (r m).input ≠ ws := fun m hm hws => hno ⟨m, hm, hws⟩
  obtain ⟨p, hnp, hp⟩ := hconsumer n
  obtain ⟨q, hpq, hq⟩ := hproducer (p + 1)
  have hoffered : ∀ m, n ≤ m → (r m).input = w :: ws := fun m => offered_of_never_accepted hrun hin hnever
  have hpopped : (r (p + 1)).slot = none := popTurn_empties_slot (hp ▸ hrun p)
  have hslot : (r q).slot = none := slot_empty_of_offered hrun hpopped (fun m hm => hoffered m (by omega)) hpq
  have hturn : takeTurn .producer (r q) = .next (r (q + 1)) := hq ▸ hrun q
  exact hnever (q + 1) (by omega) (producerTurn_accepts_of_empty_slot (hoffered q (by omega)) hslot hturn)

/-! ### The reset input -/

theorem step_reset {s : State} {ts : List Turn} (hsch : s.schedule = .reset :: ts) :
    step s = .next (s.withSchedule ts).clear :=
  step_cons hsch

/-- A producer turn takes an EOC offered to an empty block and emits nothing (40_frame_decoder R103). -/
theorem step_eocWord_of_empty {s : State} {ws : List OpWord} {us : List Turn} (hacc : s.acc = [])
    (hslot : s.slot = none) (hin : s.input = eocWord :: ws) (hsch : s.schedule = .producer :: us) :
    step s = .next { s with input := ws, schedule := us } := by
  rw [step_accepts hin hsch (by simp [holds, hslot]), decodeWord_eocWord]
  exact exec_eoc_of_not_closes (s := (s.withSchedule us).withInput ws) (hacc ▸ closes_nil)

/-- Settles O2. -/
theorem resetInputKeepsTheOfferedWord : Obligations.ResetInputKeepsTheOfferedWord := by
  intro s ts hsch
  exact ⟨_, step_reset hsch, rfl, fun ws us hin hts => ⟨_, step_eocWord_of_empty rfl rfl hin hts, rfl⟩⟩

/-! ### The producer's duties -/

theorem flagsClear_iff (s : State) : s.flagsClear = true ↔ s.ovf = false ∧ s.ill = false := by
  simp [State.flagsClear]

theorem accFull_of_unbounded {s : State} (hcap : s.cfg.accCap = none) : s.accFull = false := by
  simp [State.accFull, hcap]

/-- No word of a producer that keeps its duties is illegal (R223). -/
theorem isIllegalWord_of_dutifulWords {ws : List OpWord} (h : dutifulWords ws) {w : OpWord} (hw : w ∈ ws) :
    isIllegalWord w = false := by
  refine Bool.eq_false_iff.2 fun hill => ?_
  have hdecode := decodeWord_of_isIllegalWord hill
  obtain hnop | ⟨n, hn⟩ | ⟨b, hb⟩ | heoc := dutifulWords_decode h hw
  · cases hdecode.symm.trans hnop
  · exact commandInstr_ne_illegal n w (hn.symm.trans hdecode)
  · cases hdecode.symm.trans hb
  · cases hdecode.symm.trans heoc

/-- Of the operations, a PUSH whose guard fires and an illegal word alone record a fault (40_frame_decoder R105,
R106). -/
theorem exec_keeps_faults {i : Instr} {s t : State} (hroom : s.accFull = false) (hlegal : ∀ w, i ≠ .illegal w)
    (h : exec i s = .next t) : t.faults = s.faults := by
  obtain rfl | ⟨b, -, -, hfull, -⟩ | ⟨b, -, -, -, rfl⟩ | ⟨-, -, -, -, rfl⟩ | ⟨-, rfl⟩ | ⟨w, hw, -⟩ | ⟨n, -, rfl⟩ |
    ⟨-, rfl⟩ | ⟨F, r, -, -, -, rfl⟩ := exec_cases h
  case inr.inl => cases hroom.symm.trans hfull
  case inr.inr.inr.inr.inr.inl => exact absurd hw (hlegal w)
  all_goals rfl

/-- With room in ACC and no illegal word offered, a step records at most a fault of the reader. -/
theorem step_keeps_count {s t : State} {f : Fault} (hf : f ≠ .readWithoutValue) (hroom : s.accFull = false)
    (hlegal : ∀ w ∈ s.input, isIllegalWord w = false) (h : step s = .next t) :
    t.faults.count f = s.faults.count f := by
  obtain ⟨ws, ts, ⟨-, rfl⟩ | ⟨-, -, o, new, hnew, rfl⟩ | ⟨-, -, rfl⟩ | ⟨-, -, rfl⟩ | ⟨-, w, hin, -, hexec⟩⟩ :=
    step_effect h
  case inr.inl =>
    have hfresh : new.count f = 0 := List.count_eq_zero_of_not_mem fun hmem => hf (hnew f hmem)
    change (s.faults ++ new).count f = _
    rw [List.count_append, hfresh, Nat.add_zero]
  case inr.inr.inr.inr =>
    have hword : ∀ v, decodeWord w ≠ .illegal v := fun v hv => by
      have hill := isIllegalWord_of_decodeWord hv
      rw [hlegal w (by simp [hin])] at hill
      cases hill
    rw [exec_keeps_faults (s := (s.withSchedule ts).withInput ws) hroom hword hexec]
    rfl
  all_goals rfl

/-- No step changes the build (00_scope R8). -/
theorem step_keeps_cfg {s t : State} (h : step s = .next t) : t.cfg = s.cfg := by
  obtain ⟨ws, ts, ⟨-, rfl⟩ | ⟨-, -, o, new, -, rfl⟩ | ⟨-, -, rfl⟩ | ⟨-, -, rfl⟩ | ⟨-, w, -, -, hexec⟩⟩ := step_effect h
  case inr.inr.inr.inr =>
    obtain ⟨hcfg, -⟩ := operationsKeepTheirFrame _ _ _ hexec
    exact hcfg
  all_goals rfl

/-- What a dutiful producer keeps on the unbounded build: the flags are clear and no illegal word is offered. -/
structure State.InDuty (m : State) : Prop where
  cap : m.cfg.accCap = none
  ovf : m.ovf = false
  ill : m.ill = false
  legal : ∀ w ∈ m.input, isIllegalWord w = false

theorem step_keeps_inDuty {s t : State} (hs : s.InDuty) (h : step s = .next t) : t.InDuty := by
  obtain ⟨hovf, hill, -⟩ := flagsAreSticky s t h
  refine ⟨?_, Bool.eq_false_iff.2 fun ht => ?_, Bool.eq_false_iff.2 fun ht => ?_, fun w hw => ?_⟩
  · rw [step_keeps_cfg h, hs.cap]
  · obtain ⟨hfull, -⟩ := hovf hs.ovf ht
    cases (accFull_of_unbounded hs.cap).symm.trans hfull
  · obtain ⟨-, w, ws, hin, hw⟩ := hill hs.ill ht
    cases (hs.legal w (by simp [hin])).symm.trans hw
  · exact hs.legal w ((step_input_suffix h).subset hw)

/-- Settles O53. -/
theorem dutifulProducersRaiseNoFlag : Obligations.DutifulProducersRaiseNoFlag := by
  intro k s t hduty hcap hclear hrun
  obtain ⟨hovf, hill⟩ := (flagsClear_iff s).1 hclear
  have hs : s.InDuty := ⟨hcap, hovf, hill, fun w => isIllegalWord_of_dutifulWords hduty⟩
  have ht : t.InDuty := run_keeps (P := State.InDuty) (fun _ _ => step_keeps_inDuty) hs hrun
  have hcount (f : Fault) (hf : f ≠ .readWithoutValue) : t.faults.count f = s.faults.count f :=
    (run_keeps (P := fun m => m.InDuty ∧ m.faults.count f = s.faults.count f)
      (fun _ _ ⟨hm, hsame⟩ hstep => ⟨step_keeps_inDuty hm hstep,
        (step_keeps_count hf (accFull_of_unbounded hm.cap) hm.legal hstep).trans hsame⟩) ⟨hs, rfl⟩ hrun).2
  exact ⟨(flagsClear_iff t).2 ⟨ht.ovf, ht.ill⟩, hcount _ nofun, hcount _ nofun⟩

/-! ### Reads of an empty slot -/

section EmptySlot

variable {s : State} (hslot : s.slot = none)
include hslot

theorem result_of_empty : s.result = none := by
  rw [State.result, hslot, Option.bind_none]

theorem rd_outByte_of_empty (idx : BitVec 16) : rd s 4 idx = none := by
  rw [rd_outByte, State.outByte, hslot, Option.bind_none, Option.map_none]

theorem rd_cell_of_empty (idx : BitVec 16) : rd s 6 idx = none := by
  rw [rd_cell, State.cell, result_of_empty hslot, Option.map_none]

theorem rd_field_of_empty {idx : BitVec 16} (hidx : idx.toNat < 14) : rd s 5 idx = none := by
  rw [rd_field, State.field, if_neg (by omega), hslot, Option.bind_none, Option.map_none]

theorem rd_resultKind_of_empty (idx : BitVec 16) : rd s 3 idx = some (.word 0) := by
  rw [rd_resultKind, result_of_empty hslot, resultCode]

end EmptySlot

/-- Settles O41. -/
theorem nothingToReadAfterPop : Obligations.NothingToReadAfterPop := by
  intro s t h
  have hslot : t.slot = none := by
    cases h
    rfl
  exact ⟨rd_outByte_of_empty hslot, rd_cell_of_empty hslot, fun _ => rd_field_of_empty hslot,
    rd_resultKind_of_empty hslot⟩

end Sys2Proof.Machine
end
